-- ==== Sys2Proof/Word.lean ====
section
/-!
DEFINITION. The data of the machine: bytes, nibbles, and the indexes of cells and bits.
Every datum is 8 bits wide (R4, R57); register and port addresses are four bits wide and always in
range (R21), so they are indexes below 16.
-/

namespace Sys2Proof

/-- The content of a register cell, a port cell, a program-store cell or the program counter
(R4: `XLEN = 8`). -/
abbrev Byte := BitVec 8

/-- Half of a byte (R6): an opcode, or an operand field of an encoded instruction. -/
abbrev Nibble := BitVec 4

/-- The address of a register cell (R4: `NREG = 16`). -/
abbrev Reg := Fin 16

/-- The address of a port cell (R4: `NPORT = 16`). -/
abbrev Port := Fin 16

/-- A bit position in a byte; bit 0 is the least significant (R6). -/
abbrev BitPos := Fin 8

/-- The register a conditional branch tests: cell 0 or cell 15 (R74, R130). -/
inductive CondSource where
  | reg0
  | flags
  deriving DecidableEq, Repr

/-- The condition-bit selector of `bib`: one bit of one of the two registers (R74). -/
structure CondSel where
  source : CondSource
  bit    : BitPos
  deriving DecidableEq, Repr

/-- Register cell 15, the flags register (R4: `FLAGS_REG = 15`, R23). -/
abbrev flagsReg : Reg := 15

/-- Register cell 0, the other register a branch can test (R4: `COND_REG0 = 0`). -/
abbrev condReg0 : Reg := 0

end Sys2Proof
end

