-- ==== Sys2Proof/Config.lean ====
section
/-!
DEFINITION. What the spec leaves open (R5): the named parameters, gathered in the record `Config`
that every operation of the model takes as an argument (R9), and the free values. The reference
values stand in Machine/Reference.lean.
-/

namespace Sys2Proof

/-- The sixteen mnemonics (R75, R166). `inPort` and `outPort` are the spec's `in` and `out`. -/
inductive Mnemonic where
  | nop | add | sub | and | or | nor | xor | inc
  | rolr | rnv | bib | jmp | mov | ldi | inPort | outPort
  deriving DecidableEq, Repr

/-- Every mnemonic, in the order of the spec's opcode map (R75). -/
def Mnemonic.all : List Mnemonic :=
  [.nop, .add, .sub, .and, .or, .nor, .xor, .inc,
   .rolr, .rnv, .bib, .jmp, .mov, .ldi, .inPort, .outPort]

/-- An opcode assignment `OPC : Mnemonic -> 0..15` (R5, R75). -/
abbrev OpcodeMap := Mnemonic → Nibble

/-- The two orders of an ALU instruction's result write and flag update
(`ALU_DEST15_ORDER`, R5, R118). -/
inductive AluOrder where
  | flagsFirst
  | resultFirst
  deriving DecidableEq, Repr

/-- `PC_OVERFLOW` (R5, R27): what advancing the program counter from 255 does. -/
inductive PcOverflow where
  | fault
  | wrap
  deriving DecidableEq, Repr

/-- `NOR_Z_TEST` (R5, R115): whether `nor` tests its 8-bit result for zero, or never sets zero. -/
inductive NorZTest where
  | masked
  | never
  deriving DecidableEq, Repr

/-- `REG_RESET`, `PORT_RESET` (R5, R40): a byte, or nothing said. -/
inductive ResetValue where
  | byte (v : Byte)
  | unspecified
  deriving DecidableEq, Repr

/-- A token of assembly text (R161). -/
abbrev Token := List Char

/-- The assembler's errors (R171). Each is total: no byte sequence is returned (R160). -/
inductive AsmError where
  /-- a first token that is neither a mnemonic nor the label introducer -/
  | unknownMnemonic
  /-- a register operand outside the vocabulary -/
  | unknownRegister
  /-- a condition-bit operand outside the vocabulary -/
  | unknownCondition
  /-- a port operand outside the vocabulary -/
  | unknownPort
  /-- a label that no line defines -/
  | unresolvedLabel
  /-- too few or too many tokens for the line's form -/
  | operandCount
  /-- a second definition of a label -/
  | duplicateLabel
  /-- a label value outside 0..255 -/
  | labelRange
  /-- a literal outside the grammar -/
  | literalSyntax
  /-- a literal outside 0..255 -/
  | literalRange
  /-- more than 256 bytes -/
  | programTooLong
  deriving DecidableEq, Repr

/-- The assembler's vocabulary (R5; R163 to R167): the name tables, the label introducer and the
literal grammar. -/
structure Vocabulary where
  mnemonics  : List (Token × Mnemonic)
  registers  : List (Token × Reg)
  ports      : List (Token × Port)
  conditions : List (Token × CondSel)
  labelToken : Token
  literal    : Token → Except AsmError Byte

/-- The open parameters of the hardware and of its assembler (R5). -/
structure Config where
  /-- `OPC` -/
  opc        : OpcodeMap
  /-- `FLAG_Z` -/
  flagZ      : BitPos
  /-- `FLAG_C` -/
  flagC      : BitPos
  /-- `FLAG_S` -/
  flagS      : BitPos
  /-- `JMP_ADJUST` -/
  jmpAdjust  : Fin 2
  /-- `LABEL_BIAS` -/
  labelBias  : Fin 2
  /-- `NOR_Z_TEST` -/
  norZTest   : NorZTest
  /-- `ALU_DEST15_ORDER`, for each ALU mnemonic -/
  aluOrder   : Mnemonic → AluOrder
  /-- `PC_OVERFLOW` -/
  pcOverflow : PcOverflow
  /-- `ROM_FILL`: `none`, or what a never-written program-store cell holds -/
  romFill    : Option Byte
  /-- `REG_RESET` -/
  regReset   : ResetValue
  /-- `PORT_RESET` -/
  portReset  : ResetValue
  /-- `REGNAME`, `PORTNAME`, `CONDNAME`, `LABEL_TOKEN`, the spellings, the literal grammar -/
  vocab      : Vocabulary

/-- The entropy source of `rnv`: the value of draw number `k` is free (R33, R123; log 10). -/
opaque Config.drawByte : Nat → Byte

/-- The content of a register cell at reset under `REG_RESET = unspecified` (R40; log 11). -/
opaque Config.freeReg : Reg → Byte

/-- The content of a port cell at reset under `PORT_RESET = unspecified` (R40; log 11). -/
opaque Config.freePort : Port → Byte

end Sys2Proof
end

