-- ==== Sys2Proof/Syntax.lean ====
section
/-!
DEFINITION. The instructions: one constructor per row of spec/opcode_table.json, with the operands
of R73 and R74. The bits the decoder ignores are no part of an instruction: "Two instructions are
the same instruction when they differ only in ignored bits" (R80).
-/

namespace Sys2Proof

/-- The instruction set (R75). `d` is a destination register, `s`, `s1`, `s2` source registers. -/
inductive Instr where
  /-- `nop` (R100) -/
  | nop
  /-- `add d s1 s2` (R111) -/
  | add (d s1 s2 : Reg)
  /-- `sub d s1 s2` (R112) -/
  | sub (d s1 s2 : Reg)
  /-- `and d s1 s2` (R113) -/
  | and (d s1 s2 : Reg)
  /-- `or d s1 s2` (R114) -/
  | or (d s1 s2 : Reg)
  /-- `nor d s1 s2` (R115) -/
  | nor (d s1 s2 : Reg)
  /-- `xor d s1 s2` (R116) -/
  | xor (d s1 s2 : Reg)
  /-- `inc d` (R121) -/
  | inc (d : Reg)
  /-- `rolr d` (R122) -/
  | rolr (d : Reg)
  /-- `rnv d` (R123) -/
  | rnv (d : Reg)
  /-- `bib n t` (R130): branch to `t` if the bit `n` is 1 -/
  | bib (n : CondSel) (t : Byte)
  /-- `jmp t` (R131) -/
  | jmp (t : Byte)
  /-- `mov d s` (R140) -/
  | mov (d s : Reg)
  /-- `ldi d imm` (R141) -/
  | ldi (d : Reg) (imm : Byte)
  /-- `in d p` (R150) -/
  | inPort (d : Reg) (p : Port)
  /-- `out p r` (R151): the operands stand as in the assembly line (R166) -/
  | outPort (p : Port) (r : Reg)
  deriving DecidableEq, Repr

/-- The mnemonic of an instruction. -/
def Instr.mnemonic : Instr → Mnemonic
  | .nop => .nop
  | .add .. => .add
  | .sub .. => .sub
  | .and .. => .and
  | .or .. => .or
  | .nor .. => .nor
  | .xor .. => .xor
  | .inc .. => .inc
  | .rolr .. => .rolr
  | .rnv .. => .rnv
  | .bib .. => .bib
  | .jmp .. => .jmp
  | .mov .. => .mov
  | .ldi .. => .ldi
  | .inPort .. => .inPort
  | .outPort .. => .outPort

end Sys2Proof
end

