-- ==== Sys2Proof/WellFormed.lean ====
section
/-!
DEFINITION. What must hold of an instruction and of a configuration.

An instruction has no ill-formed term: its operand types carry their bounds, because the ISA has no
illegal and no reserved encoding (R78) and "All register/port addresses derived from nibbles
are always in range by construction" (R21). `Instr.wellFormed` spells the bounds out all the same,
on plain numbers, and Laws/Syntax.lean proves that every instruction passes. A configuration can be
ill-formed, and each of R5's conditions on it is a check of its own.
-/

namespace Sys2Proof

/-- The check of one operand: its code lies below the bound its field admits (R74). -/
def codeBelow (bound code : Nat) : Bool := decide (code < bound)

/-- The operand codes of an instruction, each with the bound of its field (R74). -/
def Instr.codes : Instr → List (Nat × Nat)
  | .nop => []
  | .add d s1 s2 | .sub d s1 s2 | .and d s1 s2 | .or d s1 s2 | .nor d s1 s2 | .xor d s1 s2 =>
    [(16, d.val), (16, s1.val), (16, s2.val)]
  | .inc d | .rolr d | .rnv d => [(16, d.val)]
  | .bib n t => [(8, n.bit.val), (256, t.toNat)]
  | .jmp t => [(256, t.toNat)]
  | .mov d s => [(16, d.val), (16, s.val)]
  | .ldi d imm => [(16, d.val), (256, imm.toNat)]
  | .inPort d p => [(16, d.val), (16, p.val)]
  | .outPort p r => [(16, p.val), (16, r.val)]

/-- An instruction is well-formed when every operand code fits its field. -/
def Instr.wellFormed (i : Instr) : Bool := i.codes.all fun c => codeBelow c.1 c.2

/-- `OPC` gives distinct mnemonics distinct codes, so it is a bijection onto 0..15 (R5). -/
def Config.opcDistinct (c : Config) : Bool :=
  Mnemonic.all.all fun m => Mnemonic.all.all fun m' => !(c.opc m == c.opc m') || m == m'

/-- `OPC(nop) = 0` (R5). -/
def Config.nopIsZero (c : Config) : Bool := c.opc .nop == 0

/-- `FLAG_Z`, `FLAG_C` and `FLAG_S` are three distinct positions (R5). -/
def Config.flagsDistinct (c : Config) : Bool :=
  c.flagZ != c.flagC && c.flagZ != c.flagS && c.flagC != c.flagS

/-- A configuration the spec admits (R5). -/
def Config.wellFormed (c : Config) : Bool := c.opcDistinct && c.nopIsZero && c.flagsDistinct

end Sys2Proof
end

