-- ==== Sys2Proof/Decode.lean ====
section
/-!
DEFINITION. The encoding: nibbles and fields of a byte, the opcode map, the decoder (total on any
bytes, rejecting by name) and the encoder, both written from the formats of R72 and R74.
-/

namespace Sys2Proof

/-- The high nibble `b[7:4]` (R6). -/
def hiNibble (b : Byte) : Nibble := b.extractLsb' 4 4

/-- The low nibble `b[3:0]` (R6). -/
def loNibble (b : Byte) : Nibble := b.extractLsb' 0 4

/-- The byte `{hi, lo}` (R6). -/
def byteOf (hi lo : Nibble) : Byte := hi ++ lo

/-- A nibble used directly as a register-file or port-bank address (R74). -/
def cellOf (n : Nibble) : Fin 16 := n.toFin

/-- The 4-bit code of a register or a port. -/
def cellCode (r : Fin 16) : Nibble := BitVec.ofFin r

/-- The condition-bit selector: `n[3]` chooses the register, `n[2:0]` the bit (R74). -/
def condOf (n : Nibble) : CondSel where
  source := if n.getLsbD 3 then .flags else .reg0
  bit := (n.extractLsb' 0 3).toFin

/-- The 4-bit code of a condition-bit selector (R74). -/
def condCode (c : CondSel) : Nibble :=
  (match c.source with | .flags => 1#1 | .reg0 => 0#1) ++ (BitVec.ofFin c.bit : BitVec 3)

/-- The reference opcode assignment (R75; D1, log 1). -/
def referenceOpc : OpcodeMap
  | .nop => 0x0
  | .add => 0x1
  | .sub => 0x2
  | .and => 0x3
  | .or => 0x4
  | .nor => 0x5
  | .xor => 0x6
  | .inc => 0x7
  | .rolr => 0x8
  | .rnv => 0x9
  | .bib => 0xA
  | .jmp => 0xB
  | .mov => 0xC
  | .ldi => 0xD
  | .inPort => 0xE
  | .outPort => 0xF

/-- The length in bytes of an instruction, decided by its mnemonic alone (R70). -/
def Mnemonic.length : Mnemonic → Nat
  | .nop | .inc | .rolr | .rnv => 1
  | .add | .sub | .and | .or | .nor | .xor | .bib | .jmp | .mov | .ldi | .inPort | .outPort => 2

/-- `OPC^-1` (R39): the mnemonic that an opcode selects. It is defined on every opcode when the
assignment is a bijection (Laws/Decode.lean). -/
def mnemonicOf (opc : OpcodeMap) (n : Nibble) : Option Mnemonic :=
  Mnemonic.all.find? fun m => opc m == n

/-- The instruction that a mnemonic makes of its first and second byte: which fields each format
reads (R72, R74). The other bits are ignored (R77); a one-byte format ignores `b2`. -/
def Mnemonic.build (m : Mnemonic) (b1 b2 : Byte) : Instr :=
  let n := cellOf (loNibble b1)
  let hi := cellOf (hiNibble b2)
  let lo := cellOf (loNibble b2)
  match m with
  | .nop => .nop
  | .add => .add n hi lo
  | .sub => .sub n hi lo
  | .and => .and n hi lo
  | .or => .or n hi lo
  | .nor => .nor n hi lo
  | .xor => .xor n hi lo
  | .inc => .inc n
  | .rolr => .rolr n
  | .rnv => .rnv n
  | .bib => .bib (condOf (loNibble b1)) b2
  | .jmp => .jmp b2
  | .mov => .mov n hi
  | .ldi => .ldi n b2
  | .inPort => .inPort n hi
  | .outPort => .outPort hi n

/-- Why the decoder rejects a byte sequence. -/
inductive DecodeError where
  /-- there is no byte at all -/
  | noBytes
  /-- the first byte's opcode belongs to no mnemonic: impossible when `OPC` is a bijection (R183) -/
  | unassignedOpcode (opc : Nibble)
  /-- the sequence ends after the first byte of a two-byte instruction -/
  | missingSecondByte (m : Mnemonic)
  deriving DecidableEq, Repr

/-- The decoder (R76): the first instruction of a byte sequence and the bytes after it. -/
def decode (opc : OpcodeMap) : List Byte → Except DecodeError (Instr × List Byte)
  | [] => .error .noBytes
  | b1 :: rest =>
    match mnemonicOf opc (hiNibble b1) with
    | none => .error (.unassignedOpcode (hiNibble b1))
    | some m =>
      if m.length = 1 then .ok (m.build b1 0, rest)
      else
        match rest with
        | [] => .error (.missingSecondByte m)
        | b2 :: rest' => .ok (m.build b1 b2, rest')

/-- The operand nibble of the first byte (R71, R72): zero where the format has none (R80). -/
def Instr.nibble1 : Instr → Nibble
  | .nop | .jmp _ => 0
  | .add d _ _ | .sub d _ _ | .and d _ _ | .or d _ _ | .nor d _ _ | .xor d _ _
  | .inc d | .rolr d | .rnv d | .mov d _ | .ldi d _ | .inPort d _ | .outPort _ d => cellCode d
  | .bib n _ => condCode n

/-- The second byte, where the format has one (R72, R74), ignored bits zero (R80). -/
def Instr.byte2 : Instr → Option Byte
  | .nop | .inc _ | .rolr _ | .rnv _ => none
  | .add _ s1 s2 | .sub _ s1 s2 | .and _ s1 s2 | .or _ s1 s2 | .nor _ s1 s2 | .xor _ s1 s2 =>
    some (byteOf (cellCode s1) (cellCode s2))
  | .bib _ t | .jmp t => some t
  | .ldi _ imm => some imm
  | .mov _ s => some (byteOf (cellCode s) 0)
  | .inPort _ p | .outPort p _ => some (byteOf (cellCode p) 0)

/-- The canonical encoding of an instruction (R71, R72, R80). -/
def encode (opc : OpcodeMap) (i : Instr) : List Byte :=
  byteOf (opc i.mnemonic) i.nibble1 :: i.byte2.toList

/-- The byte sequence of a table word: the first byte is bits 7..0 of `w`, the second bits 15..8,
every bit above `nbits` is 0 (R82). -/
def tableBytes (nbits w : Nat) : List Byte :=
  let v := w % 2 ^ nbits
  [BitVec.ofNat 8 v, BitVec.ofNat 8 (v / 256)]

/-- The instruction the decoder reads, under the reference opcode assignment, from an instruction
whose bits are `w` in the numbering of spec/opcode_table.json. -/
def decodeTableWord (nbits w : Nat) : Option Instr :=
  match decode referenceOpc (tableBytes nbits w) with
  | .ok (i, _) => some i
  | .error _ => none

end Sys2Proof
end

