-- ==== Sys2Proof/Machine/Vocabulary.lean ====
section
/-!
DEFINITION. The assembler's reference vocabulary (R163 to R167): name tables, label introducer and
literal grammar. Every spelling that is not `a`, `b`, `c`, `o0`, `ldi`, `add` or `out` is the spec's
own choice (D11 to D16; log 12, log 13).
-/

namespace Sys2Proof.Machine

/-- A table of names, each with the code at its place from `start` on. -/
def namesFrom {n : Nat} [NeZero n] (start : Fin n) : List String → List (Token × Fin n)
  | [] => []
  | s :: rest => (s.toList, start) :: namesFrom (start + 1) rest

/-- The mnemonic spellings (R166). -/
def referenceMnemonics : List (Token × Mnemonic) :=
  [("nop".toList, .nop), ("add".toList, .add), ("sub".toList, .sub), ("and".toList, .and),
   ("or".toList, .or), ("nor".toList, .nor), ("xor".toList, .xor), ("inc".toList, .inc),
   ("rolr".toList, .rolr), ("rnv".toList, .rnv), ("bib".toList, .bib), ("jmp".toList, .jmp),
   ("mov".toList, .mov), ("ldi".toList, .ldi), ("in".toList, .inPort), ("out".toList, .outPort)]

/-- The register names (R163). -/
def referenceRegisters : List (Token × Reg) :=
  namesFrom 0 ["a", "b", "c", "d", "e", "f", "g", "h", "i", "j", "k", "l", "m", "n", "o", "p"]

/-- The port names (R164). -/
def referencePorts : List (Token × Port) :=
  namesFrom 0 ["i0", "i1", "i2", "i3", "i4", "i5", "i6", "i7",
               "o0", "o1", "o2", "o3", "o4", "o5", "o6", "o7"]

/-- The name of a bit of the flags register: `zf`, `cf`, `sf` follow the flag positions, a reserved
bit `k` is `f` and its number (R165; the `f` names at other than the reference positions: log 12). -/
def flagBitName (z c s : BitPos) (k : BitPos) : Token :=
  if k = z then "zf".toList
  else if k = c then "cf".toList
  else if k = s then "sf".toList
  else ['f', Char.ofNat (48 + k.val)]

/-- The condition-bit names (R165) for the given flag positions. -/
def conditionNames (z c s : BitPos) : List (Token × CondSel) :=
  let bits : List BitPos := [0, 1, 2, 3, 4, 5, 6, 7]
  (bits.map fun k => (['a', Char.ofNat (48 + k.val)], ⟨.reg0, k⟩)) ++
    bits.map fun k => (flagBitName z c s k, ⟨.flags, k⟩)

/-- The value of a digit in the given base, if the character is a digit of it (R167). -/
def digitValue (base : Nat) (c : Char) : Option Nat :=
  let n := c.toNat
  let v :=
    if 48 ≤ n ∧ n ≤ 57 then some (n - 48)
    else if 65 ≤ n ∧ n ≤ 70 then some (n - 55)
    else if 97 ≤ n ∧ n ≤ 102 then some (n - 87)
    else none
  v.filter (· < base)

/-- The value of a digit string read so far and the digits after it. -/
def digitsFrom (base acc : Nat) : List Char → Option Nat
  | [] => some acc
  | c :: rest =>
    match digitValue base c with
    | none => none
    | some v => digitsFrom base (base * acc + v) rest

/-- One or more digits of a base, as a number; a literal outside 0..255 is `literalRange` (R167). -/
def digitsLiteral (base : Nat) (ds : List Char) : Except AsmError Byte :=
  if ds = [] then .error .literalSyntax
  else
    match digitsFrom base 0 ds with
    | none => .error .literalSyntax
    | some v => if v < 256 then .ok (BitVec.ofNat 8 v) else .error .literalRange

/-- The literal grammar (R167; D16, log 13): decimal, `0x` hexadecimal, `0b` binary. -/
def referenceLiteral : Token → Except AsmError Byte
  | '0' :: 'x' :: ds => digitsLiteral 16 ds
  | '0' :: 'b' :: ds => digitsLiteral 2 ds
  | ds => digitsLiteral 10 ds

/-- The vocabulary with the condition names of the given flag positions. -/
def vocabularyFor (z c s : BitPos) : Vocabulary where
  mnemonics := referenceMnemonics
  registers := referenceRegisters
  ports := referencePorts
  conditions := conditionNames z c s
  labelToken := "label".toList
  literal := referenceLiteral

end Sys2Proof.Machine
end

