-- ==== Sys2Proof/Machine/Reference.lean ====
section
/-!
DEFINITION. The reference configuration (R9): the reference value of every open parameter of R5.
It stands here, and not in Config.lean, so that a later repair can mend a value.
-/

namespace Sys2Proof

/-- The reference order of an ALU instruction's two writes: flags first, then the result, for all
but `rolr`; result first, then carry, for `rolr` (R5; D6, log 6). -/
def referenceAluOrder : Mnemonic → AluOrder
  | .rolr => .resultFirst
  | .nop | .add | .sub | .and | .or | .nor | .xor | .inc | .rnv | .bib | .jmp | .mov | .ldi
  | .inPort | .outPort => .flagsFirst

end Sys2Proof

namespace Sys2Proof.Machine

/-- The reference value of `FLAG_Z` (R5; D2, log 2). -/
def referenceFlagZ : BitPos := 0

/-- The reference value of `FLAG_C` (R5; D2, log 2). -/
def referenceFlagC : BitPos := 1

/-- The reference value of `FLAG_S` (R5; D2, log 2). -/
def referenceFlagS : BitPos := 2

/-- The reference configuration (R9). -/
def reference : Config where
  opc := referenceOpc
  flagZ := referenceFlagZ
  flagC := referenceFlagC
  flagS := referenceFlagS
  jmpAdjust := 0
  labelBias := 0
  norZTest := .masked
  aluOrder := referenceAluOrder
  pcOverflow := .fault
  romFill := none
  regReset := .byte 0
  portReset := .byte 0
  vocab := vocabularyFor referenceFlagZ referenceFlagC referenceFlagS

end Sys2Proof.Machine
end

