-- ==== Sys2Proof/Machine/State.lean ====
section
/-!
DEFINITION. The architectural state (R38), the reasons a step stops, the environment's usage errors,
and the state after reset (R40).
-/

namespace Sys2Proof.Machine

/-- The two phases of the program store (R29). -/
inductive RomPhase where
  | writable
  | frozen
  deriving DecidableEq, Repr

/-- The program store as (address, byte) pairs in canonical form (`Memory.wf` in Machine/Ops.lean).
A cell is listed when it was written (the written-mark of R29), except that no entry equals what an
unlisted cell reads as (log 25). -/
abbrev Memory := List Host.Cell

/-- The machine's state: the tuple `(x, pc, rom, rom_phase, port)` of R38 and the model's own
counter of draws. -/
structure State where
  /-- the register file; cell 15 is the flags register (R20, R23) -/
  x        : Vector Byte 16
  /-- the program counter (R26) -/
  pc       : Byte
  /-- the program store (R29) -/
  rom      : Memory
  /-- the program store's phase (R29) -/
  romPhase : RomPhase
  /-- the port bank (R30) -/
  port     : Vector Byte 16
  /-- how many bytes `rnv` has drawn: the model's own field, which selects the next free value of
  the entropy source; nothing else reads it (log 10) -/
  draws    : Nat
  deriving DecidableEq, Repr

/-- The faults of R181. A fault ends the run; no state is defined after it (R187). -/
inductive Fault where
  /-- Raised by the fetch of the byte at address 255 when `PC_OVERFLOW = fault`. Safe: hardware whose
  counter wraps would go on. -/
  | pcOverflow
  /-- Raised by the fetch of a never-written cell when `ROM_FILL = none`. Safe: hardware whose cells
  hold some byte would go on. -/
  | unloadedFetch (addr : Byte)
  /-- Raised by `jmp` when `JMP_ADJUST = 1` and the target is 0. Safe; it cannot occur in the
  reference configuration. -/
  | jumpTargetUnderflow
  deriving DecidableEq, Repr

/-- The step requests that are turned away. -/
inductive Refusal where
  /-- An instruction without a meaning, by its mnemonic. Raised by no arm of this model. Safe. -/
  | notModelled (mnemonic : String)
  /-- A step requested while the program store is writable (R184). Raised by the fetch. Safe: the
  spec describes no step on such a store. -/
  | stepBeforeFreeze
  /-- The defensive decode error of R183. Raised by the decoder under an opcode assignment that is no
  bijection, so never under a well-formed configuration. Safe. -/
  | unassignedOpcode (opc : Nibble)
  deriving DecidableEq, Repr

/-- The usage errors of the environment's operations (R182). Each leaves every state unchanged. -/
inductive UsageError where
  /-- a loader write to a frozen program store -/
  | romWriteAfterFreeze
  /-- `in_set` outside 0..7 or `out_get` outside 8..15 -/
  | portDirection
  /-- a byte sequence of more than 256 bytes -/
  | programTooLong
  deriving DecidableEq, Repr

/-- A step's three outcomes (R8). -/
abbrev Result := Host.Outcome State Fault Refusal

/-- The reset content of a cell: the byte the parameter gives, or a free byte (R40). -/
def resetByte (r : ResetValue) (free : Byte) : Byte :=
  match r with
  | .byte v => v
  | .unspecified => free

/-- The state after reset (R40, R200) under a configuration: a fresh CPU with a fresh, writable,
empty program store. -/
def State.resetUnder (cfg : Config) : State where
  x := Vector.ofFn fun r => resetByte cfg.regReset (Config.freeReg r)
  pc := 0
  rom := []
  romPhase := .writable
  port := Vector.ofFn fun p => resetByte cfg.portReset (Config.freePort p)
  draws := 0

/-- The state after reset in the reference configuration (R40; log 9). -/
def State.reset : State := State.resetUnder reference

end Sys2Proof.Machine
end

