-- ==== Sys2Proof/Machine/Ops.lean ====
section
/-!
DEFINITION. The named operations over the state: register cells, port cells, the program counter,
the program store, and `Fetch()` (R7, R27).

The hardware has no exception to take and none to return from (R180, R187, R188): a fault ends the
run and saves nothing. So there is no operation of exception entry here; the operation that can stop
the machine is `fetch`.
-/

namespace Sys2Proof.Machine

/-! ## Program store -/

/-- The byte listed for an address. -/
def Memory.lookup : Memory → Nat → Option Byte
  | [], _ => none
  | (k, v) :: rest, a => if k = a then some v else lookup rest a

/-- The list without its entry for an address. -/
def Memory.erase : Memory → Nat → Memory
  | [], _ => []
  | (k, v) :: rest, a => if k = a then rest else (k, v) :: erase rest a

/-- The sorted list with an entry for an address, put in place of the old one if there is one. -/
def Memory.insert : Memory → Nat → Byte → Memory
  | [], a, b => [(a, b)]
  | (k, v) :: rest, a, b =>
    if a < k then (a, b) :: (k, v) :: rest
    else if a = k then (a, b) :: rest
    else (k, v) :: insert rest a b

/-- What a program-store cell reads as: its entry, or `ROM_FILL` for a cell never written; `none`
when such a cell has no value (R27, R52; log 8). -/
def Memory.read (fill : Option Byte) (m : Memory) (a : Nat) : Option Byte :=
  match m.lookup a with
  | some v => some v
  | none => fill

/-- Write one cell, keeping the canonical form: writing what an unlisted cell reads as removes the
entry (R51; log 25). -/
def Memory.write (fill : Option Byte) (m : Memory) (a : Nat) (b : Byte) : Memory :=
  if fill = some b then m.erase a else m.insert a b

/-- Every address of the list lies above `low` and below 256, and they strictly rise. -/
def Memory.risesFrom (low : Nat) : Memory → Bool
  | [] => true
  | (k, _) :: rest => decide (low ≤ k) && decide (k < 256) && risesFrom (k + 1) rest

/-- The canonical form: addresses strictly rising, all below `ROM_SIZE = 256`, and no entry equal to
what an unlisted address reads as. -/
def Memory.wf (fill : Option Byte) (m : Memory) : Bool :=
  m.risesFrom 0 && m.all fun c => !(fill == some c.2)

/-! ## Registers, ports, program counter -/

/-- `x[i]` (R7, R20). -/
def State.reg (s : State) (r : Reg) : Byte := s.x[r]

/-- `x[i] <- v` (R7, R20). -/
def State.setReg (s : State) (r : Reg) (v : Byte) : State := { s with x := s.x.set r v }

/-- `port[p]`, the CPU's unchecked read (R56). -/
def State.readPort (s : State) (p : Port) : Byte := s.port[p]

/-- `port[p] <- v`, the CPU's unchecked write (R56). -/
def State.writePort (s : State) (p : Port) (v : Byte) : State := { s with port := s.port.set p v }

/-- `pc <- t` (R7, R28). -/
def State.setPc (s : State) (t : Byte) : State := { s with pc := t }

/-! ## Fetch -/

/-- The advance of the program counter past the byte just read (R27). -/
def advance (cfg : Config) (s : State) : Result :=
  if s.pc = 255 then
    match cfg.pcOverflow with
    | .fault => .fault .pcOverflow
    | .wrap => .next (s.setPc 0)
  else .next (s.setPc (s.pc + 1))

/-- `Fetch()` (R27): the byte at the program counter and the state with the counter advanced. The
checks stand in the order of R186. -/
def fetch (cfg : Config) (s : State) : Host.Outcome (Byte × State) Fault Refusal :=
  match s.romPhase with
  | .writable => .refused .stepBeforeFreeze
  | .frozen =>
    match Memory.read cfg.romFill s.rom s.pc.toNat with
    | none => .fault (.unloadedFetch s.pc)
    | some b =>
      match advance cfg s with
      | .next s' => .next (b, s')
      | .fault f => .fault f
      | .refused r => .refused r

/-- The fetches and the decoding of one instruction (R34, R35, R39): the instruction and the state
whose program counter is past all its bytes. -/
def fetchInstr (cfg : Config) (s : State) : Host.Outcome (Instr × State) Fault Refusal :=
  match fetch cfg s with
  | .fault f => .fault f
  | .refused r => .refused r
  | .next (b1, s1) =>
    match mnemonicOf cfg.opc (hiNibble b1) with
    | none => .refused (.unassignedOpcode (hiNibble b1))
    | some m =>
      if m.length = 1 then .next (m.build b1 0, s1)
      else
        match fetch cfg s1 with
        | .fault f => .fault f
        | .refused r => .refused r
        | .next (b2, s2) => .next (m.build b1 b2, s2)

/-- One step (R39): fetch and decode an instruction, then run its meaning. -/
def runFetched (cfg : Config) (run : Instr → State → Result) (s : State) : Result :=
  match fetchInstr cfg s with
  | .next (i, s') => run i s'
  | .fault f => .fault f
  | .refused r => .refused r

/-- How many bytes the instruction of a table word has (R70). -/
def wordLength (nbits w : Nat) : Nat :=
  match decodeTableWord nbits w with
  | some i => i.mnemonic.length
  | none => 2

/-- Put a two-byte word where the next fetch reads it and freeze the store, so that the next step
runs it. Where the `length` bytes of the instruction would reach address 255, from which the program
counter cannot advance, the program counter is first set to 0 (log 23). -/
def placeWord (fill : Option Byte) (length : Nat) (bytes : List Byte) (s : State) : State :=
  let a := if s.pc.toNat + length ≤ 255 then s.pc.toNat else 0
  let put (m : Memory) (k : Nat) : Memory := Memory.write fill m (a + k) (bytes.getD k 0)
  { s with pc := BitVec.ofNat 8 a, rom := put (put s.rom 0) 1, romPhase := .frozen }

end Sys2Proof.Machine
end

