-- ==== Sys2Proof/Machine/Operands.lean ====
section
/-!
DEFINITION. The operand forms that read the state (R74): a register pair, a register, a port and a
condition bit. An immediate and a target are the instruction byte itself. Nothing is sign-extended,
scaled or shifted, and no form changes the state (R59, R68).
-/

namespace Sys2Proof.Machine

/-- Both sources of a binary ALU instruction, read before anything is written (R110). -/
def State.regPair (s : State) (s1 s2 : Reg) : Byte × Byte := (s.reg s1, s.reg s2)

/-- The register a condition selector names (R130). -/
def CondSource.cell : CondSource → Reg
  | .reg0 => condReg0
  | .flags => flagsReg

/-- The bit a condition selector names (R130). -/
def State.condBit (s : State) (n : CondSel) : Bool :=
  (s.reg (CondSource.cell n.source)).getLsbD n.bit.val

end Sys2Proof.Machine
end

