-- ==== Sys2Proof/Machine/Flags.lean ====
section
/-!
DEFINITION. The flag updates (R7, R24) and the order of flag update and result write (R110, R118).
A flag update only ever sets bits of register cell 15, but for `rolr`'s carry.
-/

namespace Sys2Proof.Machine

/-- A byte with one bit set: `v | (1 << F)` (R7). -/
def setBit (v : Byte) (f : BitPos) : Byte := v ||| 1#8 <<< f.val

/-- A byte with one bit cleared: `v & ~(1 << F)` (R7). -/
def clearBit (v : Byte) (f : BitPos) : Byte := v &&& ~~~(1#8 <<< f.val)

/-- `setflag(F)` (R7). -/
def State.setflag (s : State) (f : BitPos) : State := s.setReg flagsReg (setBit (s.reg flagsReg) f)

/-- `putflag(F, c)` (R7). -/
def State.putflag (s : State) (f : BitPos) (c : Bool) : State :=
  s.setReg flagsReg (if c then setBit (s.reg flagsReg) f else clearBit (s.reg flagsReg) f)

/-- `if c then setflag(F)`. -/
def State.setflagIf (s : State) (c : Bool) (f : BitPos) : State := if c then s.setflag f else s

/-- `add` and `inc`: carry is set when the raw sum exceeds 255 (R24, R111, R121). -/
def sumFlags (cfg : Config) (raw : Nat) (s : State) : State :=
  s.setflagIf (decide (255 < raw)) cfg.flagC

/-- `sub`: sign is set when the raw difference is negative, zero when it is 0 (R24, R112). -/
def differenceFlags (cfg : Config) (raw : Int) (s : State) : State :=
  (s.setflagIf (decide (raw < 0)) cfg.flagS).setflagIf (decide (raw = 0)) cfg.flagZ

/-- `and`, `or`, `xor`: zero is set when the result is 0 (R24, R113, R114, R116). -/
def logicFlags (cfg : Config) (r : Byte) (s : State) : State :=
  s.setflagIf (decide (r = 0)) cfg.flagZ

/-- `nor`: as `logicFlags` when `NOR_Z_TEST = masked`, no flag update when it is `never` (R115). -/
def norFlags (cfg : Config) (r : Byte) (s : State) : State :=
  match cfg.norZTest with
  | .masked => logicFlags cfg r s
  | .never => s

/-- `rolr`: carry becomes the bit rotated out, set or cleared (R24, R122). -/
def rotateFlags (cfg : Config) (c : Bool) (s : State) : State := s.putflag cfg.flagC c

/-- The two writes of an ALU instruction, in the order the parameter gives. The order can be told
apart only when the destination is register 15 (R110, R118). -/
def aluWrite (order : AluOrder) (update : State → State) (d : Reg) (v : Byte) (s : State) : State :=
  match order with
  | .flagsFirst => (update s).setReg d v
  | .resultFirst => update (s.setReg d v)

end Sys2Proof.Machine
end

