-- ==== Sys2Proof/Machine/BinaryAlu.lean ====
section
/-!
DEFINITION. The binary ALU instructions `add sub and or nor xor` (R110 to R118).
-/

namespace Sys2Proof.Machine

/-- `add d s1 s2` (R111). -/
def addUnder (cfg : Config) (d s1 s2 : Reg) (s : State) : Result :=
  let (a, b) := s.regPair s1 s2
  let raw := a.toNat + b.toNat
  .next (aluWrite (cfg.aluOrder .add) (sumFlags cfg raw) d (BitVec.ofNat 8 raw) s)

/-- `sub d s1 s2` (R112): the minuend is the first source. -/
def subUnder (cfg : Config) (d s1 s2 : Reg) (s : State) : Result :=
  let (a, b) := s.regPair s1 s2
  let raw : Int := a.toNat - b.toNat
  .next (aluWrite (cfg.aluOrder .sub) (differenceFlags cfg raw) d (BitVec.ofInt 8 raw) s)

/-- `and d s1 s2` (R113). -/
def andUnder (cfg : Config) (d s1 s2 : Reg) (s : State) : Result :=
  let (a, b) := s.regPair s1 s2
  let r := a &&& b
  .next (aluWrite (cfg.aluOrder .and) (logicFlags cfg r) d r s)

/-- `or d s1 s2` (R114). -/
def orUnder (cfg : Config) (d s1 s2 : Reg) (s : State) : Result :=
  let (a, b) := s.regPair s1 s2
  let r := a ||| b
  .next (aluWrite (cfg.aluOrder .or) (logicFlags cfg r) d r s)

/-- `nor d s1 s2` (R115): the 8-bit complement of the OR is stored (D5, log 5). -/
def norUnder (cfg : Config) (d s1 s2 : Reg) (s : State) : Result :=
  let (a, b) := s.regPair s1 s2
  let r := ~~~(a ||| b)
  .next (aluWrite (cfg.aluOrder .nor) (norFlags cfg r) d r s)

/-- `xor d s1 s2` (R116). -/
def xorUnder (cfg : Config) (d s1 s2 : Reg) (s : State) : Result :=
  let (a, b) := s.regPair s1 s2
  let r := a ^^^ b
  .next (aluWrite (cfg.aluOrder .xor) (logicFlags cfg r) d r s)

/-- `add` in the reference configuration. -/
def execAdd (d s1 s2 : Reg) (s : State) : Result := addUnder reference d s1 s2 s

/-- `sub` in the reference configuration. -/
def execSub (d s1 s2 : Reg) (s : State) : Result := subUnder reference d s1 s2 s

/-- `and` in the reference configuration. -/
def execAnd (d s1 s2 : Reg) (s : State) : Result := andUnder reference d s1 s2 s

/-- `or` in the reference configuration. -/
def execOr (d s1 s2 : Reg) (s : State) : Result := orUnder reference d s1 s2 s

/-- `nor` in the reference configuration. -/
def execNor (d s1 s2 : Reg) (s : State) : Result := norUnder reference d s1 s2 s

/-- `xor` in the reference configuration. -/
def execXor (d s1 s2 : Reg) (s : State) : Result := xorUnder reference d s1 s2 s

end Sys2Proof.Machine
end

