-- ==== Sys2Proof/Machine/ControlTransfer.lean ====
section
/-!
DEFINITION. Control transfer: `bib` and `jmp` (R130 to R133).
-/

namespace Sys2Proof.Machine

/-- `bib n t` (R130): taken when the selected bit is 1. `JMP_ADJUST` does not apply. -/
def bibUnder (_cfg : Config) (n : CondSel) (t : Byte) (s : State) : Result :=
  .next (if s.condBit n then s.setPc t else s)

/-- `jmp t` (R131): under `JMP_ADJUST = 1` a target of 0 has no adjusted value and faults. -/
def jmpUnder (cfg : Config) (t : Byte) (s : State) : Result :=
  if cfg.jmpAdjust = 1 ∧ t = 0 then .fault .jumpTargetUnderflow
  else .next (s.setPc (t - BitVec.ofNat 8 cfg.jmpAdjust.val))

/-- `bib` in the reference configuration. -/
def execBib (n : CondSel) (t : Byte) (s : State) : Result := bibUnder reference n t s

/-- `jmp` in the reference configuration. -/
def execJmp (t : Byte) (s : State) : Result := jmpUnder reference t s

end Sys2Proof.Machine
end

