-- ==== Sys2Proof/Machine/DataMovement.lean ====
section
/-!
DEFINITION. Data movement: `mov` and `ldi` (R140, R141). Neither updates a flag; with destination 15
each replaces the whole flags byte.
-/

namespace Sys2Proof.Machine

/-- `mov d s` (R140). -/
def movUnder (_cfg : Config) (d src : Reg) (s : State) : Result := .next (s.setReg d (s.reg src))

/-- `ldi d imm` (R141). -/
def ldiUnder (_cfg : Config) (d : Reg) (imm : Byte) (s : State) : Result := .next (s.setReg d imm)

/-- `mov` in the reference configuration. -/
def execMov (d src : Reg) (s : State) : Result := movUnder reference d src s

/-- `ldi` in the reference configuration. -/
def execLdi (d : Reg) (imm : Byte) (s : State) : Result := ldiUnder reference d imm s

end Sys2Proof.Machine
end

