-- ==== Sys2Proof/Machine/NoOperand.lean ====
section
/-!
DEFINITION. The no-operand instruction (R100). In this and the other families the state given to a
meaning has its program counter past the whole instruction (R26), `<name>Under cfg` is the meaning
under a configuration and `exec<Name>` the meaning in the reference configuration (R9, log 24).
-/

namespace Sys2Proof.Machine

/-- `nop` (R100): nothing. -/
def nopUnder (_cfg : Config) (s : State) : Result := .next s

/-- `nop` in the reference configuration. -/
def execNop (s : State) : Result := nopUnder reference s

end Sys2Proof.Machine
end

