-- ==== Sys2Proof/Machine/PortIo.lean ====
section
/-!
DEFINITION. Port input and output: `in` and `out` (R150, R151). The CPU's accessors are unchecked: any
of the sixteen ports may be read and written (R56).
-/

namespace Sys2Proof.Machine

/-- `in d p` (R150). -/
def inPortUnder (_cfg : Config) (d : Reg) (p : Port) (s : State) : Result :=
  .next (s.setReg d (s.readPort p))

/-- `out p r` (R151). -/
def outPortUnder (_cfg : Config) (p : Port) (r : Reg) (s : State) : Result :=
  .next (s.writePort p (s.reg r))

/-- `in` in the reference configuration. -/
def execInPort (d : Reg) (p : Port) (s : State) : Result := inPortUnder reference d p s

/-- `out` in the reference configuration. -/
def execOutPort (p : Port) (r : Reg) (s : State) : Result := outPortUnder reference p r s

end Sys2Proof.Machine
end

