-- ==== Sys2Proof/Machine/UnaryAlu.lean ====
section
/-!
DEFINITION. The unary ALU instructions `inc rolr rnv` (R120 to R123).
-/

namespace Sys2Proof.Machine

/-- `inc d` (R121). -/
def incUnder (cfg : Config) (d : Reg) (s : State) : Result :=
  let raw := (s.reg d).toNat + 1
  .next (aluWrite (cfg.aluOrder .inc) (sumFlags cfg raw) d (BitVec.ofNat 8 raw) s)

/-- `{c, a[7:1]}` with `c = a[0]`: the 8-bit rotate, not through carry (R122). -/
def rotateByte (a : Byte) : Byte := a >>> 1 ||| a <<< 7

/-- `rolr d` (R122). -/
def rolrUnder (cfg : Config) (d : Reg) (s : State) : Result :=
  let a := s.reg d
  .next (aluWrite (cfg.aluOrder .rolr) (rotateFlags cfg (a.getLsbD 0)) d (rotateByte a) s)

/-- `rnv d` with the drawn value given (R123): no flag is touched. -/
def storeDraw (v : Byte) (d : Reg) (s : State) : State := s.setReg d v

/-- `rnv d` (R123): the drawn value is free, and the next draw is another free value (log 10). -/
def rnvUnder (_cfg : Config) (d : Reg) (s : State) : Result :=
  .next { storeDraw (Config.drawByte s.draws) d s with draws := s.draws + 1 }

/-- `inc` in the reference configuration. -/
def execInc (d : Reg) (s : State) : Result := incUnder reference d s

/-- `rolr` in the reference configuration. -/
def execRolr (d : Reg) (s : State) : Result := rolrUnder reference d s

/-- `rnv` in the reference configuration. -/
def execRnv (d : Reg) (s : State) : Result := rnvUnder reference d s

end Sys2Proof.Machine
end

