-- ==== Sys2Proof/Machine/Dispatch.lean ====
section
/-!
DEFINITION. The dispatch of R39: the meaning of every instruction in the reference configuration.
-/

namespace Sys2Proof.Machine

/-- Run one decoded instruction; the program counter is already past it (R26, R39). -/
def exec (i : Instr) (s : State) : Host.Outcome State Fault Refusal :=
  match i with
  | .nop => Sys2Proof.Machine.execNop s
  | .add d s1 s2 => Sys2Proof.Machine.execAdd d s1 s2 s
  | .sub d s1 s2 => Sys2Proof.Machine.execSub d s1 s2 s
  | .and d s1 s2 => Sys2Proof.Machine.execAnd d s1 s2 s
  | .or d s1 s2 => Sys2Proof.Machine.execOr d s1 s2 s
  | .nor d s1 s2 => Sys2Proof.Machine.execNor d s1 s2 s
  | .xor d s1 s2 => Sys2Proof.Machine.execXor d s1 s2 s
  | .inc d => Sys2Proof.Machine.execInc d s
  | .rolr d => Sys2Proof.Machine.execRolr d s
  | .rnv d => Sys2Proof.Machine.execRnv d s
  | .bib n t => Sys2Proof.Machine.execBib n t s
  | .jmp t => Sys2Proof.Machine.execJmp t s
  | .mov d src => Sys2Proof.Machine.execMov d src s
  | .ldi d imm => Sys2Proof.Machine.execLdi d imm s
  | .inPort d p => Sys2Proof.Machine.execInPort d p s
  | .outPort p r => Sys2Proof.Machine.execOutPort p r s

end Sys2Proof.Machine
end

