-- ==== Sys2Proof/Machine/Step.lean ====
section
/-!
DEFINITION. One step in the reference configuration (R8, R39), and the placing of a word where it is
fetched.
-/

namespace Sys2Proof.Machine

/-- One externally requested step (R8, R39). -/
def step (s : State) : Host.Outcome State Fault Refusal := runFetched reference exec s

/-- The state with an instruction's bits stored where `step` fetches its next instruction, and the
program store frozen, as after a load (R202; log 23). -/
def State.withFetchWord (s : State) (nbits w : Nat) : State :=
  placeWord reference.romFill (wordLength nbits w) (tableBytes nbits w) s

end Sys2Proof.Machine
end

