-- ==== Sys2Proof/Machine/Assembler.lean ====
section
/-!
DEFINITION. The reference assembler (R160 to R176): tokenizer, two-pass label resolution and the
encoding of each line, with the vocabulary, `OPC` and `LABEL_BIAS` of a configuration. It is written
from the token rules R168 and R169 and does not call the encoder of Decode.lean, so that their
agreement (R176) is a fact to be proved.
-/

namespace Sys2Proof.Machine

/-! ## Lines and tokens (R161) -/

/-- The characters that separate tokens within a line (R161 says "arbitrary whitespace"; log 14). -/
def isBlank (c : Char) : Bool :=
  c == ' ' || c == '\t' || c == '\r' || c == Char.ofNat 11 || c == Char.ofNat 12

/-- Put a character before the first line of a list of lines. -/
def consLine {α : Type} (c : α) : List (List α) → List (List α)
  | [] => [[c]]
  | l :: ls => (c :: l) :: ls

/-- The lines of a text; a newline ends a line. -/
def linesOf : List Char → List (List Char)
  | [] => [[]]
  | c :: rest => if c = '\n' then [] :: linesOf rest else consLine c (linesOf rest)

/-- The pieces between blanks, empty ones included. -/
def piecesOf : List Char → List Token
  | [] => [[]]
  | c :: rest => if isBlank c then [] :: piecesOf rest else consLine c (piecesOf rest)

/-- The tokens of a line: runs of blanks are collapsed, leading and trailing ones dropped (R161). -/
def tokensOf (line : List Char) : List Token := (piecesOf line).filter fun t => !t.isEmpty

/-! ## Encoding of a line (R166 to R169) -/

/-- One byte of the output, or the placeholder of a label (R169). -/
inductive Item where
  | byte (b : Byte)
  | labelRef (name : Token)
  deriving DecidableEq, Repr

/-- Look a name up in a table, or fail with the table's error (R171). -/
def lookupName {α : Type} (e : AsmError) (table : List (Token × α)) (t : Token) :
    Except AsmError α :=
  match table.lookup t with
  | some v => .ok v
  | none => .error e

/-- How many operand tokens a mnemonic takes (R166). -/
def operandCount : Mnemonic → Nat
  | .nop => 0
  | .inc | .rolr | .rnv | .jmp => 1
  | .bib | .mov | .ldi | .inPort | .outPort => 2
  | .add | .sub | .and | .or | .nor | .xor => 3

/-- The operand nibble of the first byte (R168). For `out` it is the register, the second token. -/
def operandNibble (v : Vocabulary) (m : Mnemonic) (ops : List Token) : Except AsmError Nibble :=
  match m with
  | .nop | .jmp => .ok 0
  | .bib => (lookupName .unknownCondition v.conditions (ops.getD 0 [])).map condCode
  | .outPort => (lookupName .unknownRegister v.registers (ops.getD 1 [])).map cellCode
  | .add | .sub | .and | .or | .nor | .xor | .inc | .rolr | .rnv | .mov | .ldi | .inPort =>
    (lookupName .unknownRegister v.registers (ops.getD 0 [])).map cellCode

/-- The second byte, where the mnemonic has a source operand (R169). -/
def sourceItems (v : Vocabulary) (m : Mnemonic) (ops : List Token) : Except AsmError (List Item) :=
  match m with
  | .nop | .inc | .rolr | .rnv => .ok []
  | .add | .sub | .and | .or | .nor | .xor =>
    match lookupName .unknownRegister v.registers (ops.getD 1 []) with
    | .error e => .error e
    | .ok s1 =>
      (lookupName .unknownRegister v.registers (ops.getD 2 [])).map fun s2 =>
        [.byte (byteOf (cellCode s1) (cellCode s2))]
  | .bib => .ok [.labelRef (ops.getD 1 [])]
  | .jmp => .ok [.labelRef (ops.getD 0 [])]
  | .mov =>
    (lookupName .unknownRegister v.registers (ops.getD 1 [])).map fun s =>
      [.byte (byteOf (cellCode s) 0)]
  | .ldi => (v.literal (ops.getD 1 [])).map fun b => [.byte b]
  | .inPort =>
    (lookupName .unknownPort v.ports (ops.getD 1 [])).map fun p => [.byte (byteOf (cellCode p) 0)]
  | .outPort =>
    (lookupName .unknownPort v.ports (ops.getD 0 [])).map fun p => [.byte (byteOf (cellCode p) 0)]

/-- The items one instruction line emits (R172): mnemonic, operand count, first byte, second byte, in
this order of errors. -/
def instrItems (cfg : Config) (name : Token) (ops : List Token) : Except AsmError (List Item) :=
  match lookupName .unknownMnemonic cfg.vocab.mnemonics name with
  | .error e => .error e
  | .ok m =>
    if ops.length ≠ operandCount m then .error .operandCount
    else
      match operandNibble cfg.vocab m ops with
      | .error e => .error e
      | .ok n =>
        (sourceItems cfg.vocab m ops).map fun items => .byte (byteOf (cfg.opc m) n) :: items

/-! ## Labels and the two passes (R162, R170, R172) -/

/-- The state of one assembly: the items emitted so far and the labels bound so far. -/
structure AsmState where
  out    : List Item
  labels : List (Token × Byte)
  deriving DecidableEq, Repr

/-- Bind a label to `|out| - LABEL_BIAS` (R162). -/
def bindLabel (cfg : Config) (name : Token) (st : AsmState) : Except AsmError AsmState :=
  if (st.labels.lookup name).isSome then .error .duplicateLabel
  else if st.out.length < cfg.labelBias.val ∨ 255 < st.out.length - cfg.labelBias.val then
    .error .labelRange
  else
    .ok { st with
      labels := st.labels ++ [(name, BitVec.ofNat 8 (st.out.length - cfg.labelBias.val))] }

/-- The first pass over one line (R172). -/
def asmLine (cfg : Config) (st : AsmState) : List Token → Except AsmError AsmState
  | [] => .ok st
  | t :: ops =>
    if t = cfg.vocab.labelToken then
      match ops with
      | [name] => bindLabel cfg name st
      | _ => .error .operandCount
    else (instrItems cfg t ops).map fun items => { st with out := st.out ++ items }

/-- The first pass over all lines, stopping at the first error. -/
def asmLines (cfg : Config) (st : AsmState) : List (List Token) → Except AsmError AsmState
  | [] => .ok st
  | l :: rest =>
    match asmLine cfg st l with
    | .error e => .error e
    | .ok st' => asmLines cfg st' rest

/-- The byte of an item: a placeholder becomes its label's value (R170). -/
def resolveItem (labels : List (Token × Byte)) : Item → Except AsmError Byte
  | .byte b => .ok b
  | .labelRef name => lookupName .unresolvedLabel labels name

/-- The second pass: every placeholder becomes its label's value (R170). -/
def resolveItems (labels : List (Token × Byte)) : List Item → Except AsmError (List Byte)
  | [] => .ok []
  | i :: rest =>
    match resolveItem labels i with
    | .error e => .error e
    | .ok b => (resolveItems labels rest).map fun bs => b :: bs

/-- Assemble tokenized lines (R172). -/
def assembleLines (cfg : Config) (lines : List (List Token)) : Except AsmError (List Byte) :=
  match asmLines cfg ⟨[], []⟩ lines with
  | .error e => .error e
  | .ok st => if 256 < st.out.length then .error .programTooLong else resolveItems st.labels st.out

/-- The assembler: source text to byte sequence, or an error and no bytes at all (R160, R172). -/
def assemble (cfg : Config) (text : String) : Except AsmError (List Byte) :=
  assembleLines cfg ((linesOf text.toList).map tokensOf)

end Sys2Proof.Machine
end

