-- ==== Sys2Proof/Machine/Execute.lean ====
section
/-!
DEFINITION. The dispatch and the step of R39 with the parameters of R5 as an argument (R9). `exec` and
`step` are these at `reference` (Laws/Exec.lean).
-/

namespace Sys2Proof.Machine

/-- Run one decoded instruction under a configuration. -/
def execUnder (cfg : Config) (i : Instr) (s : State) : Result :=
  match i with
  | .nop => nopUnder cfg s
  | .add d s1 s2 => addUnder cfg d s1 s2 s
  | .sub d s1 s2 => subUnder cfg d s1 s2 s
  | .and d s1 s2 => andUnder cfg d s1 s2 s
  | .or d s1 s2 => orUnder cfg d s1 s2 s
  | .nor d s1 s2 => norUnder cfg d s1 s2 s
  | .xor d s1 s2 => xorUnder cfg d s1 s2 s
  | .inc d => incUnder cfg d s
  | .rolr d => rolrUnder cfg d s
  | .rnv d => rnvUnder cfg d s
  | .bib n t => bibUnder cfg n t s
  | .jmp t => jmpUnder cfg t s
  | .mov d src => movUnder cfg d src s
  | .ldi d imm => ldiUnder cfg d imm s
  | .inPort d p => inPortUnder cfg d p s
  | .outPort p r => outPortUnder cfg p r s

/-- One step under a configuration (R39). -/
def stepUnder (cfg : Config) (s : State) : Result := runFetched cfg (execUnder cfg) s

end Sys2Proof.Machine
end

