-- ==== Sys2Proof/Machine/Environment.lean ====
section
/-!
DEFINITION. The environment's operations on the machine (R51 to R55; R182, R202; D20, log 18): loader
write, load of a byte sequence, freeze, input setter, output getter, and the step request. They act
between steps, one after another (R11, R63). A usage error changes no state (R182).
-/

namespace Sys2Proof.Machine

/-- `MemWrite(addr, 1, v)` (R51). -/
def memWrite (cfg : Config) (addr v : Byte) (s : State) : Except UsageError State :=
  match s.romPhase with
  | .writable => .ok { s with rom := Memory.write cfg.romFill s.rom addr.toNat v }
  | .frozen => .error .romWriteAfterFreeze

/-- `MemRead(addr, 1)` (R52): the content of a program-store cell, `none` where it has no value. -/
def memRead (cfg : Config) (addr : Byte) (s : State) : Option Byte :=
  Memory.read cfg.romFill s.rom addr.toNat

/-- The loader writes of a byte sequence at consecutive addresses from `addr` (R51). -/
def writeBytes (cfg : Config) (addr : Nat) : List Byte → State → Except UsageError State
  | [], s => .ok s
  | b :: rest, s =>
    match memWrite cfg (BitVec.ofNat 8 addr) b s with
    | .error e => .error e
    | .ok s' => writeBytes cfg (addr + 1) rest s'

/-- Load a program: byte `k` of the sequence goes to `rom[k]`; a sequence of more than 256 bytes is
`ProgramTooLong` (R51; D17, log 15). -/
def loadProgram (cfg : Config) (bytes : List Byte) (s : State) : Except UsageError State :=
  if 256 < bytes.length then .error .programTooLong else writeBytes cfg 0 bytes s

/-- Freeze the program store (R53): one-way, and a second freeze has no effect. -/
def freeze (s : State) : State := { s with romPhase := .frozen }

/-- `in_set(addr, v)` (R54): input cells 0..7 only. -/
def inSet (addr : Nat) (v : Byte) (s : State) : Except UsageError State :=
  if h : addr < 8 then .ok (s.writePort ⟨addr, by omega⟩ v) else .error .portDirection

/-- `out_get(addr)` (R55): output cells 8..15 only. -/
def outGet (addr : Nat) (s : State) : Except UsageError Byte :=
  if h : 8 ≤ addr ∧ addr < 16 then .ok (s.readPort ⟨addr, h.2⟩) else .error .portDirection

/-- The requests the environment can make of the machine (D20). -/
inductive Request where
  | memWrite (addr v : Byte)
  | load (bytes : List Byte)
  | freeze
  | inSet (addr : Nat) (v : Byte)
  | outGet (addr : Nat)
  | step
  deriving DecidableEq, Repr

/-- What a request is answered with. -/
inductive Reply where
  /-- done -/
  | done
  /-- the byte asked for -/
  | value (v : Byte)
  /-- a usage error: nothing changed (R182) -/
  | usageError (e : UsageError)
  /-- a step request turned away: nothing changed (R8, R184) -/
  | refused (r : Refusal)
  /-- a fault: the run is over (R181) -/
  | fault (f : Fault)
  deriving DecidableEq, Repr

/-- A state-changing operation that may be a usage error, as a reply and the state after it. -/
def replyOf (s : State) : Except UsageError State → Reply × Option State
  | .ok s' => (.done, some s')
  | .error e => (.usageError e, some s)

/-- Serve one request: the reply, and the state after it, `none` when a fault has ended the run
(R181, R187; log 19). -/
def serve (cfg : Config) (r : Request) (s : State) : Reply × Option State :=
  match r with
  | .memWrite addr v => replyOf s (memWrite cfg addr v s)
  | .load bytes => replyOf s (loadProgram cfg bytes s)
  | .freeze => (.done, some (freeze s))
  | .inSet addr v => replyOf s (inSet addr v s)
  | .outGet addr =>
    match outGet addr s with
    | .ok v => (.value v, some s)
    | .error e => (.usageError e, some s)
  | .step =>
    match stepUnder cfg s with
    | .next s' => (.done, some s')
    | .refused e => (.refused e, some s)
    | .fault f => (.fault f, none)

/-- Serve requests one after another, to the last one or to the fault that ends the run; the replies
in order and the state left. -/
def serveAll (cfg : Config) : List Request → State → List Reply × Option State
  | [], s => ([], some s)
  | r :: rest, s =>
    match serve cfg r s with
    | (reply, none) => ([reply], none)
    | (reply, some s') =>
      let (replies, last) := serveAll cfg rest s'
      (reply :: replies, last)

end Sys2Proof.Machine
end

