-- ==== Sys2Proof/Safety.lean ====
section
/-!
DEFINITION. What counts as a safe run, in the terms claims use: the well-formed state, the step that
is certain to complete, the halted state of R203, and the runs of a machine and its environment.
-/

namespace Sys2Proof.Machine

/-- The model's invariant: the program store is in canonical form. -/
def State.Inv (cfg : Config) (s : State) : Prop := Memory.wf cfg.romFill s.rom = true

/-- The bytes at an address are loaded and lie below address 255, so that fetching them cannot
fault (R27, R209). -/
def State.loadedAt (cfg : Config) (s : State) (a : Nat) (bytes : List Byte) : Prop :=
  a + bytes.length ≤ 255 ∧
    ∀ k, (h : k < bytes.length) → Memory.read cfg.romFill s.rom (a + k) = some bytes[k]

/-- The bytes at an address are loaded, address 0 following address 255: how a fetch reads them under
`PC_OVERFLOW = wrap` (R27). -/
def State.loadedAcross (cfg : Config) (s : State) (a : Nat) (bytes : List Byte) : Prop :=
  ∀ k, (h : k < bytes.length) →
    Memory.read cfg.romFill s.rom ((a + k) % 256) = some bytes[k]

/-- The halted state of R203, in the reference configuration: the two bytes at the program counter are
a `jmp` to itself, neither at address 255 (D22, log 20). -/
def State.halted (s : State) : Prop :=
  s.romPhase = .frozen ∧ ∃ b : Byte, hiNibble b = reference.opc .jmp ∧
    s.loadedAt reference s.pc.toNat [b, s.pc]

/-- A state from which one step completes. -/
def State.safe (cfg : Config) (s : State) : Prop := ∃ t, stepUnder cfg s = .next t

/-- The states the environment can bring a machine to, by any requests, from its reset (R63, R202). -/
inductive Reachable (cfg : Config) : State → Prop where
  | reset : Reachable cfg (State.resetUnder cfg)
  | serve {s t : State} (r : Request) (h : Reachable cfg s) (e : (serve cfg r s).2 = some t) :
      Reachable cfg t

end Sys2Proof.Machine
end

