-- ==== Sys2Proof/Certificates/Slice0/Obligations.lean ====
section
/-!
DEFINITION. The statements for the provers. The helpers under `Sys2Proof.Claims` say in the spec's own
terms (numbers, bits, cells) what an instruction leaves behind; they call none of the machine's
operations but the reads of a cell. A per-instruction statement has three parts: what `exec` does in
the reference configuration, what `execUnder` does in every well-formed configuration, and which
bytes decode to the instruction. The state given to `exec` has its program counter past the whole
instruction (R26), so `pc` unchanged there is `A + 1` or `A + 2` after a step.
-/

namespace Sys2Proof.Claims

open Sys2Proof.Machine

/-- Bit `k` of a byte, by division (R6). -/
def bit (v : Byte) (k : BitPos) : Bool := decide (v.toNat / 2 ^ k.val % 2 = 1)

/-- The high nibble of a byte as a number (R6). -/
def hi (b : Byte) : Nat := b.toNat / 16

/-- The low nibble of a byte as a number (R6). -/
def lo (b : Byte) : Nat := b.toNat % 16

/-- The program store is as before: its phase, and the content of every cell. -/
def SameStore (cfg : Config) (s t : State) : Prop :=
  t.romPhase = s.romPhase ∧
    ∀ a : Nat, Memory.read cfg.romFill t.rom a = Memory.read cfg.romFill s.rom a

/-- Every port cell is as before. -/
def SamePorts (s t : State) : Prop := ∀ p : Port, t.readPort p = s.readPort p

/-- Nothing but the register cells in `written` has changed; in particular the program counter has
not, past the instruction's own fetches. -/
def OnlyRegs (cfg : Config) (written : List Reg) (s t : State) : Prop :=
  (∀ r : Reg, r ∉ written → t.reg r = s.reg r) ∧
    t.pc = s.pc ∧ SamePorts s t ∧ SameStore cfg s t ∧ t.draws = s.draws

/-- What an ALU instruction with destination `d` and 8-bit result `v` leaves behind, when its flag
update takes the bit `b` at position `k` of cell 15 to `upd k b`. With `d = 15` the two writes meet,
and the configuration says which comes last (R118). -/
def AluPost (cfg : Config) (m : Mnemonic) (v : Byte) (upd : BitPos → Bool → Bool) (d : Reg)
    (s t : State) : Prop :=
  (d ≠ 15 → t.reg d = v ∧ ∀ k, bit (t.reg 15) k = upd k (bit (s.reg 15) k)) ∧
    (d = 15 → cfg.aluOrder m = .flagsFirst → t.reg 15 = v) ∧
    (d = 15 → cfg.aluOrder m = .resultFirst → ∀ k, bit (t.reg 15) k = upd k (bit v k)) ∧
    OnlyRegs cfg [d, 15] s t

/-- The flag update that sets the bit at `f` when `c` holds and touches nothing else (R24). -/
def sets (f : BitPos) (c : Prop) [Decidable c] (k : BitPos) (b : Bool) : Bool :=
  b || decide (k = f ∧ c)

/-- `add` (R111). -/
def AddPost (cfg : Config) (d s1 s2 : Reg) (s t : State) : Prop :=
  let raw := (s.reg s1).toNat + (s.reg s2).toNat
  ∃ v : Byte, v.toNat = raw % 256 ∧ AluPost cfg .add v (sets cfg.flagC (255 < raw)) d s t

/-- `sub` (R112). -/
def SubPost (cfg : Config) (d s1 s2 : Reg) (s t : State) : Prop :=
  let raw : Int := (s.reg s1).toNat - (s.reg s2).toNat
  ∃ v : Byte, (v.toNat : Int) = raw % 256 ∧
    AluPost cfg .sub v (fun k b => sets cfg.flagZ (raw = 0) k (sets cfg.flagS (raw < 0) k b)) d s t

/-- A bitwise instruction that sets zero on a zero result if `tests` holds (R113 to R116). -/
def LogicPost (cfg : Config) (m : Mnemonic) (op : Bool → Bool → Bool) (tests : Bool)
    (d s1 s2 : Reg) (s t : State) : Prop :=
  ∃ v : Byte, (∀ k, bit v k = op (bit (s.reg s1) k) (bit (s.reg s2) k)) ∧
    AluPost cfg m v (sets cfg.flagZ (tests = true ∧ v.toNat = 0)) d s t

/-- `inc` (R121). -/
def IncPost (cfg : Config) (d : Reg) (s t : State) : Prop :=
  let raw := (s.reg d).toNat + 1
  ∃ v : Byte, v.toNat = raw % 256 ∧ AluPost cfg .inc v (sets cfg.flagC (255 < raw)) d s t

/-- `rolr` (R122). -/
def RolrPost (cfg : Config) (d : Reg) (s t : State) : Prop :=
  let a := (s.reg d).toNat
  ∃ v : Byte, v.toNat = a / 2 + 128 * (a % 2) ∧
    AluPost cfg .rolr v (fun k b => if k = cfg.flagC then decide (a % 2 = 1) else b) d s t

/-- A write of the value `v` to register `d` and no other effect: `mov`, `ldi`, `in`. -/
def LoadPost (cfg : Config) (v : Byte) (d : Reg) (s t : State) : Prop :=
  t.reg d = v ∧ OnlyRegs cfg [d] s t

/-- `rnv` storing the drawn value `v` (R123): the next draw is another one. -/
def DrawPost (cfg : Config) (v : Byte) (d : Reg) (s t : State) : Prop :=
  t.reg d = v ∧ (∀ r : Reg, r ≠ d → t.reg r = s.reg r) ∧ t.pc = s.pc ∧ SamePorts s t ∧
    SameStore cfg s t ∧ t.draws = s.draws + 1

/-- `out` (R151): one port cell written, everything else as before. -/
def OutPost (cfg : Config) (p : Port) (r : Reg) (s t : State) : Prop :=
  t.readPort p = s.reg r ∧ (∀ q : Port, q ≠ p → t.readPort q = s.readPort q) ∧
    (∀ q : Reg, t.reg q = s.reg q) ∧ t.pc = s.pc ∧ SameStore cfg s t ∧ t.draws = s.draws

/-- The bit a condition selector tests (R130): bit `n[2:0]` of cell 15 or of cell 0. -/
def selected (n : CondSel) (s : State) : Bool :=
  match n.source with
  | .flags => bit (s.reg 15) n.bit
  | .reg0 => bit (s.reg 0) n.bit

/-- The register an instruction names as its destination (R21, R73). -/
def destination : Instr → Option Reg
  | .add d _ _ | .sub d _ _ | .and d _ _ | .or d _ _ | .nor d _ _ | .xor d _ _
  | .inc d | .rolr d | .rnv d | .mov d _ | .ldi d _ | .inPort d _ => some d
  | .nop | .bib _ _ | .jmp _ | .outPort _ _ => none

/-- The registers an instruction names as sources of data (R21). -/
def sources : Instr → List Reg
  | .add _ s1 s2 | .sub _ s1 s2 | .and _ s1 s2 | .or _ s1 s2 | .nor _ s1 s2 | .xor _ s1 s2 =>
    [s1, s2]
  | .inc d | .rolr d => [d]
  | .mov _ s => [s]
  | .outPort _ r => [r]
  | .bib n _ => match n.source with | .flags => [15] | .reg0 => [0]
  | .nop | .rnv _ | .jmp _ | .ldi _ _ | .inPort _ _ => []

/-- The instructions that make an ALU flag update (R24). -/
def updatesFlags : Instr → Bool
  | .add .. | .sub .. | .and .. | .or .. | .nor .. | .xor .. | .inc .. | .rolr .. => true
  | .rnv .. | .mov .. | .ldi .. | .inPort .. | .nop | .bib .. | .jmp .. | .outPort .. => false

/-- The mnemonics of one-byte instructions, as R70 lists them. -/
def oneByte : List Mnemonic := [.nop, .inc, .rolr, .rnv]

/-- The bits of the first byte that the decoder reads (R72, R77). -/
def mask1 : Mnemonic → Byte
  | .nop | .jmp => 0xF0
  | _ => 0xFF

/-- The bits of the second byte that the decoder reads (R72, R77). -/
def mask2 : Mnemonic → Byte
  | .mov | .inPort | .outPort => 0xF0
  | _ => 0xFF

/-- The operand tokens of an assembly line name the operands of the instruction, each in its place in
the order of R166 and in its table of R163 to R165; a label stands for its value. -/
def LineMeans (v : Vocabulary) (labels : List (Token × Byte)) (ops : List Token) : Instr → Prop
  | .nop => ops = []
  | .add d s1 s2 | .sub d s1 s2 | .and d s1 s2 | .or d s1 s2 | .nor d s1 s2 | .xor d s1 s2 =>
    ∃ a b c, ops = [a, b, c] ∧ v.registers.lookup a = some d ∧ v.registers.lookup b = some s1 ∧
      v.registers.lookup c = some s2
  | .inc d | .rolr d | .rnv d => ∃ a, ops = [a] ∧ v.registers.lookup a = some d
  | .bib n t => ∃ a b, ops = [a, b] ∧ v.conditions.lookup a = some n ∧ labels.lookup b = some t
  | .jmp t => ∃ a, ops = [a] ∧ labels.lookup a = some t
  | .mov d s => ∃ a b, ops = [a, b] ∧ v.registers.lookup a = some d ∧ v.registers.lookup b = some s
  | .ldi d imm => ∃ a b, ops = [a, b] ∧ v.registers.lookup a = some d ∧ v.literal b = .ok imm
  | .inPort d p => ∃ a b, ops = [a, b] ∧ v.registers.lookup a = some d ∧ v.ports.lookup b = some p
  | .outPort p r =>
    ∃ a b, ops = [a, b] ∧ v.ports.lookup a = some p ∧ v.registers.lookup b = some r

/-- Run the same instruction `n` times in the reference configuration. -/
def execTimes (i : Instr) : Nat → State → Result
  | 0, s => .next s
  | n + 1, s =>
    match exec i s with
    | .next t => execTimes i n t
    | .fault f => .fault f
    | .refused r => .refused r

end Sys2Proof.Claims

open Sys2Proof Sys2Proof.Machine Sys2Proof.Claims

/-! ## The instructions -/

/-- R100: `nop` does nothing; the operand nibble is ignored. -/
def Obligations.NopResult : Prop :=
  ∀ s : State, exec .nop s = .next s ∧
    ∀ cfg : Config, cfg.wellFormed = true →
      execUnder cfg .nop s = .next s ∧
      ∀ (b1 : Byte) (rest : List Byte), hi b1 = 0 → decode cfg.opc (b1 :: rest) = .ok (.nop, rest)

/-- R111: `add` stores the sum modulo 256 and sets carry exactly when the raw sum exceeds 255; no
other flag bit and no other cell changes. -/
def Obligations.AddResult : Prop :=
  ∀ (d s1 s2 : Reg) (s : State),
    (∃ t, exec (.add d s1 s2) s = .next t ∧ AddPost reference d s1 s2 s t) ∧
    ∀ cfg : Config, cfg.wellFormed = true →
      (∃ t, execUnder cfg (.add d s1 s2) s = .next t ∧ AddPost cfg d s1 s2 s t) ∧
      ∀ (b1 b2 : Byte) (rest : List Byte), hi b1 = (cfg.opc .add).toNat → lo b1 = d.val →
        hi b2 = s1.val → lo b2 = s2.val →
        decode cfg.opc (b1 :: b2 :: rest) = .ok (.add d s1 s2, rest)

/-- R112: `sub` stores the difference modulo 256, sets sign exactly on a borrow and zero exactly on
equality, and never touches carry. That the minuend is the register of the high nibble is the spec's
own inference (log 26). -/
def Obligations.SubResult : Prop :=
  ∀ (d s1 s2 : Reg) (s : State),
    (∃ t, exec (.sub d s1 s2) s = .next t ∧ SubPost reference d s1 s2 s t) ∧
    ∀ cfg : Config, cfg.wellFormed = true →
      (∃ t, execUnder cfg (.sub d s1 s2) s = .next t ∧ SubPost cfg d s1 s2 s t) ∧
      ∀ (b1 b2 : Byte) (rest : List Byte), hi b1 = (cfg.opc .sub).toNat → lo b1 = d.val →
        hi b2 = s1.val → lo b2 = s2.val →
        decode cfg.opc (b1 :: b2 :: rest) = .ok (.sub d s1 s2, rest)

/-- R113: `and`, bit by bit; zero is set exactly when the result is 0. -/
def Obligations.AndResult : Prop :=
  ∀ (d s1 s2 : Reg) (s : State),
    (∃ t, exec (.and d s1 s2) s = .next t ∧ LogicPost reference .and (· && ·) true d s1 s2 s t) ∧
    ∀ cfg : Config, cfg.wellFormed = true →
      (∃ t, execUnder cfg (.and d s1 s2) s = .next t ∧
        LogicPost cfg .and (· && ·) true d s1 s2 s t) ∧
      ∀ (b1 b2 : Byte) (rest : List Byte), hi b1 = (cfg.opc .and).toNat → lo b1 = d.val →
        hi b2 = s1.val → lo b2 = s2.val →
        decode cfg.opc (b1 :: b2 :: rest) = .ok (.and d s1 s2, rest)

/-- R114: `or`, bit by bit; zero is set exactly when the result is 0. -/
def Obligations.OrResult : Prop :=
  ∀ (d s1 s2 : Reg) (s : State),
    (∃ t, exec (.or d s1 s2) s = .next t ∧ LogicPost reference .or (· || ·) true d s1 s2 s t) ∧
    ∀ cfg : Config, cfg.wellFormed = true →
      (∃ t, execUnder cfg (.or d s1 s2) s = .next t ∧
        LogicPost cfg .or (· || ·) true d s1 s2 s t) ∧
      ∀ (b1 b2 : Byte) (rest : List Byte), hi b1 = (cfg.opc .or).toNat → lo b1 = d.val →
        hi b2 = s1.val → lo b2 = s2.val →
        decode cfg.opc (b1 :: b2 :: rest) = .ok (.or d s1 s2, rest)

/-- R115: `nor` stores the 8-bit complement of the OR; the zero test follows `NOR_Z_TEST`.
Both are the spec's own choice (D5, log 5). -/
def Obligations.NorResult : Prop :=
  ∀ (d s1 s2 : Reg) (s : State),
    (∃ t, exec (.nor d s1 s2) s = .next t ∧
      LogicPost reference .nor (fun a b => !(a || b)) (reference.norZTest == .masked) d s1 s2 s t) ∧
    ∀ cfg : Config, cfg.wellFormed = true →
      (∃ t, execUnder cfg (.nor d s1 s2) s = .next t ∧
        LogicPost cfg .nor (fun a b => !(a || b)) (cfg.norZTest == .masked) d s1 s2 s t) ∧
      ∀ (b1 b2 : Byte) (rest : List Byte), hi b1 = (cfg.opc .nor).toNat → lo b1 = d.val →
        hi b2 = s1.val → lo b2 = s2.val →
        decode cfg.opc (b1 :: b2 :: rest) = .ok (.nor d s1 s2, rest)

/-- R116: `xor`, bit by bit; zero is set exactly when the result is 0. -/
def Obligations.XorResult : Prop :=
  ∀ (d s1 s2 : Reg) (s : State),
    (∃ t, exec (.xor d s1 s2) s = .next t ∧ LogicPost reference .xor Bool.xor true d s1 s2 s t) ∧
    ∀ cfg : Config, cfg.wellFormed = true →
      (∃ t, execUnder cfg (.xor d s1 s2) s = .next t ∧
        LogicPost cfg .xor Bool.xor true d s1 s2 s t) ∧
      ∀ (b1 b2 : Byte) (rest : List Byte), hi b1 = (cfg.opc .xor).toNat → lo b1 = d.val →
        hi b2 = s1.val → lo b2 = s2.val →
        decode cfg.opc (b1 :: b2 :: rest) = .ok (.xor d s1 s2, rest)

/-- R121: `inc` adds one modulo 256 and sets carry exactly when the register was 255. -/
def Obligations.IncResult : Prop :=
  ∀ (d : Reg) (s : State),
    (∃ t, exec (.inc d) s = .next t ∧ IncPost reference d s t) ∧
    ∀ cfg : Config, cfg.wellFormed = true →
      (∃ t, execUnder cfg (.inc d) s = .next t ∧ IncPost cfg d s t) ∧
      ∀ (b1 : Byte) (rest : List Byte), hi b1 = (cfg.opc .inc).toNat → lo b1 = d.val →
        decode cfg.opc (b1 :: rest) = .ok (.inc d, rest)

/-- R122: `rolr` rotates the register right by one, not through carry, and writes carry with the bit
rotated out, set or cleared. -/
def Obligations.RolrResult : Prop :=
  ∀ (d : Reg) (s : State),
    (∃ t, exec (.rolr d) s = .next t ∧ RolrPost reference d s t) ∧
    ∀ cfg : Config, cfg.wellFormed = true →
      (∃ t, execUnder cfg (.rolr d) s = .next t ∧ RolrPost cfg d s t) ∧
      ∀ (b1 : Byte) (rest : List Byte), hi b1 = (cfg.opc .rolr).toNat → lo b1 = d.val →
        decode cfg.opc (b1 :: rest) = .ok (.rolr d, rest)

/-- R123: `rnv` stores the byte its draw supplies and touches no flag. That the byte is the opaque
`Config.drawByte` at the model's own counter, and that the counter then rises by one, is the model's
choice (D10, log 10). Storing any given byte has the same effect with that byte in its place, so
whatever holds of every draw holds of this one. -/
def Obligations.RnvResult : Prop :=
  ∀ (d : Reg) (s : State),
    (∃ t, exec (.rnv d) s = .next t ∧ DrawPost reference (Config.drawByte s.draws) d s t ∧
      t = { storeDraw (Config.drawByte s.draws) d s with draws := s.draws + 1 }) ∧
    (∀ v : Byte, LoadPost reference v d s (storeDraw v d s)) ∧
    ∀ cfg : Config, cfg.wellFormed = true →
      (∃ t, execUnder cfg (.rnv d) s = .next t ∧
        DrawPost cfg (Config.drawByte s.draws) d s t) ∧
      ∀ (b1 : Byte) (rest : List Byte), hi b1 = (cfg.opc .rnv).toNat → lo b1 = d.val →
        decode cfg.opc (b1 :: rest) = .ok (.rnv d, rest)

/-- R130: `bib` tests one bit of cell 15 or of cell 0 and overwrites the program counter with the
target when it is 1; nothing else changes, and the second byte is always part of the instruction. -/
def Obligations.BibResult : Prop :=
  ∀ (n : CondSel) (tgt : Byte) (s : State),
    exec (.bib n tgt) s = .next { s with pc := if selected n s then tgt else s.pc } ∧
    ∀ cfg : Config, cfg.wellFormed = true →
      execUnder cfg (.bib n tgt) s = .next { s with pc := if selected n s then tgt else s.pc } ∧
      ∀ (b1 : Byte) (rest : List Byte), hi b1 = (cfg.opc .bib).toNat →
        (n.source = .flags ↔ 8 ≤ lo b1) → n.bit.val = lo b1 % 8 →
        decode cfg.opc (b1 :: tgt :: rest) = .ok (.bib n tgt, rest)

/-- R131: `jmp` loads the program counter with the target less `JMP_ADJUST`; the one target without
an adjusted value faults; nothing else changes, and the operand nibble is ignored. `JMP_ADJUST` and the
fault at target 0 under `JMP_ADJUST = 1` are the spec's own choice (D3, log 3). -/
def Obligations.JmpResult : Prop :=
  ∀ (tgt : Byte) (s : State),
    (reference.jmpAdjust.val ≤ tgt.toNat →
      ∃ u : Byte, u.toNat = tgt.toNat - reference.jmpAdjust.val ∧
        exec (.jmp tgt) s = .next { s with pc := u }) ∧
    ∀ cfg : Config, cfg.wellFormed = true →
      (cfg.jmpAdjust = 1 → tgt = 0 → execUnder cfg (.jmp tgt) s = .fault .jumpTargetUnderflow) ∧
      (cfg.jmpAdjust.val ≤ tgt.toNat →
        ∃ u : Byte, u.toNat = tgt.toNat - cfg.jmpAdjust.val ∧
          execUnder cfg (.jmp tgt) s = .next { s with pc := u }) ∧
      ∀ (b1 : Byte) (rest : List Byte), hi b1 = (cfg.opc .jmp).toNat →
        decode cfg.opc (b1 :: tgt :: rest) = .ok (.jmp tgt, rest)

/-- R140: `mov` copies a register; no flag is updated; the low nibble of the second byte is ignored. -/
def Obligations.MovResult : Prop :=
  ∀ (d src : Reg) (s : State),
    (∃ t, exec (.mov d src) s = .next t ∧ LoadPost reference (s.reg src) d s t) ∧
    ∀ cfg : Config, cfg.wellFormed = true →
      (∃ t, execUnder cfg (.mov d src) s = .next t ∧ LoadPost cfg (s.reg src) d s t) ∧
      ∀ (b1 b2 : Byte) (rest : List Byte), hi b1 = (cfg.opc .mov).toNat → lo b1 = d.val →
        hi b2 = src.val → decode cfg.opc (b1 :: b2 :: rest) = .ok (.mov d src, rest)

/-- R141: `ldi` stores the whole second byte; no flag is updated. -/
def Obligations.LdiResult : Prop :=
  ∀ (d : Reg) (imm : Byte) (s : State),
    (∃ t, exec (.ldi d imm) s = .next t ∧ LoadPost reference imm d s t) ∧
    ∀ cfg : Config, cfg.wellFormed = true →
      (∃ t, execUnder cfg (.ldi d imm) s = .next t ∧ LoadPost cfg imm d s t) ∧
      ∀ (b1 : Byte) (rest : List Byte), hi b1 = (cfg.opc .ldi).toNat → lo b1 = d.val →
        decode cfg.opc (b1 :: imm :: rest) = .ok (.ldi d imm, rest)

/-- R150: `in` reads any of the sixteen ports into a register; the port and the flags do not change. -/
def Obligations.InResult : Prop :=
  ∀ (d : Reg) (p : Port) (s : State),
    (∃ t, exec (.inPort d p) s = .next t ∧ LoadPost reference (s.readPort p) d s t) ∧
    ∀ cfg : Config, cfg.wellFormed = true →
      (∃ t, execUnder cfg (.inPort d p) s = .next t ∧ LoadPost cfg (s.readPort p) d s t) ∧
      ∀ (b1 b2 : Byte) (rest : List Byte), hi b1 = (cfg.opc .inPort).toNat → lo b1 = d.val →
        hi b2 = p.val → decode cfg.opc (b1 :: b2 :: rest) = .ok (.inPort d p, rest)

/-- R151: `out` writes a register to any of the sixteen ports; no register changes. -/
def Obligations.OutResult : Prop :=
  ∀ (p : Port) (r : Reg) (s : State),
    (∃ t, exec (.outPort p r) s = .next t ∧ OutPost reference p r s t) ∧
    ∀ cfg : Config, cfg.wellFormed = true →
      (∃ t, execUnder cfg (.outPort p r) s = .next t ∧ OutPost cfg p r s t) ∧
      ∀ (b1 b2 : Byte) (rest : List Byte), hi b1 = (cfg.opc .outPort).toNat → lo b1 = r.val →
        hi b2 = p.val → decode cfg.opc (b1 :: b2 :: rest) = .ok (.outPort p r, rest)

/-- R118, R121 and R122 with destination 15, at the reference order (the spec's own choice D6, log 6):
the result of `inc` and of a binary ALU instruction replaces the whole flags byte, and `rolr` forces
carry, at the reference position 1 (D2, log 2), into the rotated byte. -/
def Obligations.FlagsAsDestination : Prop :=
  ∀ (s1 s2 : Reg) (s : State),
    (∃ t, exec (.add 15 s1 s2) s = .next t ∧
      (t.reg 15).toNat = ((s.reg s1).toNat + (s.reg s2).toNat) % 256) ∧
    (∃ t, exec (.sub 15 s1 s2) s = .next t ∧
      ((t.reg 15).toNat : Int) = ((s.reg s1).toNat - (s.reg s2).toNat : Int) % 256) ∧
    (∃ t, exec (.and 15 s1 s2) s = .next t ∧ t.reg 15 = s.reg s1 &&& s.reg s2) ∧
    (∃ t, exec (.or 15 s1 s2) s = .next t ∧ t.reg 15 = s.reg s1 ||| s.reg s2) ∧
    (∃ t, exec (.nor 15 s1 s2) s = .next t ∧ t.reg 15 = ~~~(s.reg s1 ||| s.reg s2)) ∧
    (∃ t, exec (.xor 15 s1 s2) s = .next t ∧ t.reg 15 = s.reg s1 ^^^ s.reg s2) ∧
    (∃ t, exec (.inc 15) s = .next t ∧ (t.reg 15).toNat = ((s.reg 15).toNat + 1) % 256) ∧
    (∃ t, exec (.rolr 15) s = .next t ∧ ∀ k : BitPos, bit (t.reg 15) k =
      if k.val = 1 then bit (s.reg 15) 0
      else if k.val = 7 then bit (s.reg 15) 0
      else decide ((s.reg 15).toNat / 2 ^ (k.val + 1) % 2 = 1))

/-- R122: eight `rolr` of the same register restore it (for a register other than the flags, whose
carry bit is forced). -/
def Obligations.EightRotatesRestore : Prop :=
  ∀ (d : Reg) (s : State), d ≠ 15 → ∃ t, execTimes (.rolr d) 8 s = .next t ∧ t.reg d = s.reg d

/-- R180: no instruction can trap. That `jmp` to 0 under `JMP_ADJUST = 1` is the one stop of an
instruction, and that the reference configuration has `JMP_ADJUST = 0` and so no such stop, is the
spec's own choice (D3, log 3). -/
def Obligations.NoInstructionTraps : Prop :=
  (∀ (i : Instr) (s : State), ∃ t, exec i s = .next t) ∧
    ∀ (cfg : Config) (i : Instr) (s : State), (∃ t, execUnder cfg i s = .next t) ∨
      (cfg.jmpAdjust = 1 ∧ i = .jmp 0 ∧ execUnder cfg i s = .fault .jumpTargetUnderflow)

/-! ## The step -/

/-- R39, R26: when the bytes at the program counter are loaded and decode to an instruction, the step
is that instruction run with the program counter past its bytes. The bytes lie below address 255, or
anywhere under `PC_OVERFLOW = wrap`, where an instruction may reach across the end of the store. Both
outcomes at 255 are the spec's own choice (D7, log 7). -/
def Obligations.StepRunsDecoded : Prop :=
  (∀ (i : Instr) (bytes : List Byte) (s : State), s.romPhase = .frozen →
    decode reference.opc bytes = .ok (i, []) → s.loadedAt reference s.pc.toNat bytes →
    step s = exec i { s with pc := s.pc + BitVec.ofNat 8 bytes.length }) ∧
  ∀ (cfg : Config) (i : Instr) (bytes : List Byte) (s : State), s.romPhase = .frozen →
    decode cfg.opc bytes = .ok (i, []) →
    s.loadedAt cfg s.pc.toNat bytes ∨
      (cfg.pcOverflow = .wrap ∧ s.loadedAcross cfg s.pc.toNat bytes) →
    stepUnder cfg s = execUnder cfg i { s with pc := s.pc + BitVec.ofNat 8 bytes.length }

/-- R27: the five outcomes of `Fetch()`, in the order of its checks. Stopping on a writable store and
on an unwritten cell, and what 255 does, are the spec's own choices (D18, D8, D7; log 16, 8, 7). -/
def Obligations.FetchOutcomes : Prop :=
  ∀ (cfg : Config) (s : State),
    (s.romPhase = .writable → fetch cfg s = .refused .stepBeforeFreeze) ∧
    (s.romPhase = .frozen → Memory.lookup s.rom s.pc.toNat = none → cfg.romFill = none →
      fetch cfg s = .fault (.unloadedFetch s.pc)) ∧
    ∀ b : Byte, s.romPhase = .frozen →
      (Memory.lookup s.rom s.pc.toNat = some b ∨
        Memory.lookup s.rom s.pc.toNat = none ∧ cfg.romFill = some b) →
      (∀ q : Byte, s.pc.toNat ≠ 255 → q.toNat = s.pc.toNat + 1 →
        fetch cfg s = .next (b, { s with pc := q })) ∧
      (s.pc.toNat = 255 → cfg.pcOverflow = .fault → fetch cfg s = .fault .pcOverflow) ∧
      (s.pc.toNat = 255 → cfg.pcOverflow = .wrap → fetch cfg s = .next (b, { s with pc := 0 }))

/-- R181, R184, R186 in the reference configuration: exactly when a step stops, and with what. The
stops are the spec's own choices (D7, D8, D18; log 7, 8, 16), and so are the opcode numbers 0, 7, 8, 9
of the one-byte instructions (D1, log 1; R70, R75). -/
def Obligations.StepStopsExactly : Prop :=
  ∀ s : State,
    (∀ r : Refusal, step s = .refused r ↔ s.romPhase = .writable ∧ r = .stepBeforeFreeze) ∧
    ∀ f : Fault, step s = .fault f ↔ s.romPhase = .frozen ∧
      (Memory.lookup s.rom s.pc.toNat = none ∧ f = .unloadedFetch s.pc ∨
       ∃ b1 : Byte, Memory.lookup s.rom s.pc.toNat = some b1 ∧
        (s.pc.toNat = 255 ∧ f = .pcOverflow ∨
         s.pc.toNat ≠ 255 ∧ hi b1 ∉ [0, 7, 8, 9] ∧
          (Memory.lookup s.rom (s.pc.toNat + 1) = none ∧ f = .unloadedFetch (s.pc + 1) ∨
           Memory.lookup s.rom (s.pc.toNat + 1) ≠ none ∧ s.pc.toNat = 254 ∧ f = .pcOverflow)))

/-- R203: a halted state is a fixed point of the step (the name "halted" is the spec's own, D22). -/
def Obligations.HaltedIsFixedPoint : Prop := ∀ s : State, s.halted → step s = .next s

/-! ## The whole machine -/

/-- R28: only a `bib` whose tested bit is 1 and `jmp` write the program counter other than by
fetching. -/
def Obligations.PcWrites : Prop :=
  ∀ (cfg : Config) (i : Instr) (s t : State), execUnder cfg i s = .next t →
    match i with
    | .bib n tgt => t.pc = if selected n s then tgt else s.pc
    | .jmp tgt => t.pc.toNat + cfg.jmpAdjust.val = tgt.toNat
    | _ => t.pc = s.pc

/-- R21: an instruction changes no register but its destination, and cell 15 if it makes a flag
update. -/
def Obligations.RegisterWrites : Prop :=
  ∀ (cfg : Config) (i : Instr) (s t : State) (r : Reg), execUnder cfg i s = .next t →
    some r ≠ destination i → (r = 15 → updatesFlags i = false) → t.reg r = s.reg r

/-- R56, R151: no instruction but `out` changes a port cell, and `out` changes the one it names. -/
def Obligations.PortWrites : Prop :=
  ∀ (cfg : Config) (i : Instr) (s t : State) (p : Port), execUnder cfg i s = .next t →
    t.readPort p ≠ s.readPort p → ∃ r, i = .outPort p r ∧ t.readPort p = s.reg r

/-- R204: unless the instruction names register 15 as its destination, a set zero or sign flag stays
set, and a set carry flag stays set unless the instruction is `rolr`. -/
def Obligations.FlagsAreSticky : Prop :=
  ∀ (cfg : Config) (i : Instr) (s t : State), cfg.wellFormed = true →
    execUnder cfg i s = .next t → destination i ≠ some 15 →
    (bit (s.reg 15) cfg.flagZ = true → bit (t.reg 15) cfg.flagZ = true) ∧
    (bit (s.reg 15) cfg.flagS = true → bit (t.reg 15) cfg.flagS = true) ∧
    ((∀ d, i ≠ .rolr d) → bit (s.reg 15) cfg.flagC = true → bit (t.reg 15) cfg.flagC = true)

/-- R23: no ALU operation sets or clears the five reserved bits of cell 15; they change only when
cell 15 is written as a register. -/
def Obligations.ReservedFlagBits : Prop :=
  ∀ (cfg : Config) (i : Instr) (s t : State) (k : BitPos), execUnder cfg i s = .next t →
    destination i ≠ some 15 → k ≠ cfg.flagZ → k ≠ cfg.flagC → k ≠ cfg.flagS →
    bit (t.reg 15) k = bit (s.reg 15) k

/-- R25: no instruction's arithmetic takes a flag as an input: on two states that differ in the flags
byte only, an instruction that does not name register 15 as a source has the same effect on
everything but the flags byte. For `rnv` both runs take the byte `Config.drawByte` gives at one value
of the model's own counter, so the statement reads as given the same draw: that is the model's choice
(D10, log 10), which R25 does not give. -/
def Obligations.FlagsAreNoInput : Prop :=
  ∀ (cfg : Config) (i : Instr) (s t : State) (f : Byte), 15 ∉ sources i →
    execUnder cfg i s = .next t →
    ∃ t', execUnder cfg i (s.setReg 15 f) = .next t' ∧ (∀ r : Reg, r ≠ 15 → t'.reg r = t.reg r) ∧
      t'.pc = t.pc ∧ SamePorts t t' ∧ t'.rom = t.rom ∧ t'.romPhase = t.romPhase ∧
      t'.draws = t.draws

/-- R12, in terms of the model's own counter of draws (log 10), which is no state of the spec: a step
that does not run `rnv` leaves the counter as it was, and its outcome is the same at every value of
the counter. -/
def Obligations.OnlyRnvDraws : Prop :=
  ∀ (cfg : Config) (s : State) (n : Nat), (∀ d u, fetchInstr cfg s ≠ .next (.rnv d, u)) →
    match stepUnder cfg s with
    | .next t => t.draws = s.draws ∧
        stepUnder cfg { s with draws := n } = .next { t with draws := n }
    | .fault f => stepUnder cfg { s with draws := n } = .fault f
    | .refused r => stepUnder cfg { s with draws := n } = .refused r

/-- R66: nothing the machine or its environment does to a frozen program store changes a byte of it or
its phase, for any sequence of requests; and a step happens only on a frozen store (the spec's own
choice D18, log 16). -/
def Obligations.FrozenStoreNeverChanges : Prop :=
  ∀ (cfg : Config) (s : State),
    (∀ t, stepUnder cfg s = .next t → s.romPhase = .frozen) ∧
    ∀ (requests : List Request) (t : State), s.romPhase = .frozen →
      (serveAll cfg requests s).2 = some t → t.rom = s.rom ∧ t.romPhase = .frozen

/-- The canonical form of the program store (the model's invariant, log 25) is kept by every step and
by every request of the environment. -/
def Obligations.StoreFormIsKept : Prop :=
  (∀ s t : State, s.Inv reference → step s = .next t → t.Inv reference) ∧
    ∀ (cfg : Config) (r : Request) (s t : State), s.Inv cfg → (serve cfg r s).2 = some t → t.Inv cfg

/-- The canonical form holds at reset, in every configuration. -/
def Obligations.ResetStoreForm : Prop :=
  State.reset.Inv reference ∧ ∀ cfg : Config, (State.resetUnder cfg).Inv cfg

/-- R40, R200: the state after reset. The program counter's 0 is derived by the spec; the registers'
and ports' 0x00 are the spec's own choice (D9, log 9). -/
def Obligations.ResetState : Prop :=
  State.reset.pc = 0 ∧ State.reset.romPhase = .writable ∧ (∀ r : Reg, State.reset.reg r = 0) ∧
    (∀ p : Port, State.reset.readPort p = 0) ∧
    (∀ a : Byte, memRead reference a State.reset = none) ∧
    ∀ (cfg : Config) (v w : Byte), cfg.regReset = .byte v → cfg.portReset = .byte w →
      (∀ r : Reg, (State.resetUnder cfg).reg r = v) ∧
      ∀ p : Port, (State.resetUnder cfg).readPort p = w

/-! ## The encoding -/

/-- R74, R80: decoding the canonical encoding of any instruction gives the instruction back, under
every bijective opcode assignment, and leaves the bytes after it. -/
def Obligations.DecodeEncode : Prop :=
  ∀ (cfg : Config) (i : Instr) (rest : List Byte), cfg.wellFormed = true →
    decode cfg.opc (encode cfg.opc i ++ rest) = .ok (i, rest)

/-- R77, R80: the encoding of a decoded instruction is its bytes with the ignored bits cleared, so
only ignored bits are dropped. R77 is the spec's own inference (log 21). -/
def Obligations.EncodeDecodeClearsIgnored : Prop :=
  ∀ (cfg : Config) (i : Instr) (b1 b2 : Byte) (rest after : List Byte), cfg.wellFormed = true →
    decode cfg.opc (b1 :: b2 :: rest) = .ok (i, after) →
    (i.mnemonic ∈ oneByte → after = b2 :: rest ∧ encode cfg.opc i = [b1 &&& mask1 i.mnemonic]) ∧
    (i.mnemonic ∉ oneByte → after = rest ∧
      encode cfg.opc i = [b1 &&& mask1 i.mnemonic, b2 &&& mask2 i.mnemonic])

/-- R76: the decoder is total: every byte is the first byte of exactly one mnemonic's instructions,
and every byte is an acceptable second byte. -/
def Obligations.DecoderIsTotal : Prop :=
  ∀ (cfg : Config) (b1 : Byte), cfg.wellFormed = true →
    ∃ m : Mnemonic, (cfg.opc m).toNat = hi b1 ∧ (∀ m', (cfg.opc m').toNat = hi b1 → m' = m) ∧
      ∀ (b2 : Byte) (rest : List Byte), ∃ (i : Instr) (after : List Byte), i.mnemonic = m ∧
        decode cfg.opc (b1 :: b2 :: rest) = .ok (i, after)

/-- R70: the opcode alone decides the length: `nop`, `inc`, `rolr`, `rnv` are one byte long and every
other instruction two. -/
def Obligations.LengthByOpcode : Prop :=
  ∀ (cfg : Config) (b1 b2 : Byte) (rest after : List Byte) (i : Instr), cfg.wellFormed = true →
    decode cfg.opc (b1 :: b2 :: rest) = .ok (i, after) →
    (hi b1 = (cfg.opc i.mnemonic).toNat) ∧
    after = if i.mnemonic ∈ oneByte then b2 :: rest else rest

/-- Words written out from the formats of R72 under the reference opcodes (D1, log 1) decode to the
instructions they stand for: a sanity check of the decoder. -/
def Obligations.SampleWords : Prop :=
  decodeTableWord 8 0x00 = some .nop ∧ decodeTableWord 16 0x0112 = some (.add 2 0 1) ∧
    decodeTableWord 16 0x2023 = some (.sub 3 2 0) ∧ decodeTableWord 8 0x8F = some (.rolr 15) ∧
    decodeTableWord 16 0x0EA8 = some (.bib ⟨.flags, 0⟩ 14) ∧
    decodeTableWord 16 0x12A7 = some (.bib ⟨.reg0, 7⟩ 18) ∧
    decodeTableWord 16 0x10B0 = some (.jmp 16) ∧ decodeTableWord 16 0x50C0 = some (.mov 0 5) ∧
    decodeTableWord 16 0x90E2 = some (.inPort 2 9) ∧
    decodeTableWord 16 0x80F2 = some (.outPort 8 2)

/-! ## The environment's interface -/

/-- R54: the external input setter writes an input cell, and nothing else; any other address is the
usage error `PortDirection`. -/
def Obligations.InputSetter : Prop :=
  ∀ (cfg : Config) (addr : Nat) (v : Byte) (s : State),
    (addr ≤ 7 → ∃ t, inSet addr v s = .ok t ∧
      (∀ p : Port, t.readPort p = if p.val = addr then v else s.readPort p) ∧
      (∀ r : Reg, t.reg r = s.reg r) ∧ t.pc = s.pc ∧ SameStore cfg s t ∧ t.draws = s.draws ∧
      serve cfg (.inSet addr v) s = (.done, some t)) ∧
    (7 < addr → serve cfg (.inSet addr v) s = (.usageError .portDirection, some s))

/-- R55: the external output getter returns an output cell and changes nothing; any other address is
the usage error `PortDirection`. -/
def Obligations.OutputGetter : Prop :=
  ∀ (cfg : Config) (addr : Nat) (s : State),
    (∀ p : Port, p.val = addr → 8 ≤ addr →
      serve cfg (.outGet addr) s = (.value (s.readPort p), some s)) ∧
    (addr < 8 ∨ 15 < addr → serve cfg (.outGet addr) s = (.usageError .portDirection, some s))

/-- R51, R52: a loader write while the store is writable sets that cell and no other and changes
nothing else; while it is frozen it changes nothing and is `RomWriteAfterFreeze`. -/
def Obligations.LoaderWrite : Prop :=
  ∀ (cfg : Config) (addr v : Byte) (s : State), s.Inv cfg →
    (s.romPhase = .writable → ∃ t, memWrite cfg addr v s = .ok t ∧
      (∀ a : Byte, memRead cfg a t = if a = addr then some v else memRead cfg a s) ∧
      (∀ r : Reg, t.reg r = s.reg r) ∧ SamePorts s t ∧ t.pc = s.pc ∧ t.romPhase = .writable ∧
      t.draws = s.draws) ∧
    (s.romPhase = .frozen →
      serve cfg (.memWrite addr v) s = (.usageError .romWriteAfterFreeze, some s))

/-- R53: the freeze makes the program store frozen and changes nothing else. That a second freeze has
no effect is the spec's own choice (D18, log 16). -/
def Obligations.FreezeRequest : Prop :=
  ∀ (cfg : Config) (s : State), ∃ t, serve cfg .freeze s = (.done, some t) ∧
    t.romPhase = .frozen ∧ (∀ a : Byte, memRead cfg a t = memRead cfg a s) ∧
    (∀ r : Reg, t.reg r = s.reg r) ∧ SamePorts s t ∧ t.pc = s.pc ∧ t.draws = s.draws ∧
    (s.romPhase = .frozen → t = s)

/-- R51, R202: loading a byte sequence puts byte `k` in cell `k` and leaves every other cell and all
other state; a sequence of more than 256 bytes is `ProgramTooLong` (the spec's own choice, D17,
log 15). -/
def Obligations.ProgramLoad : Prop :=
  ∀ (cfg : Config) (bytes : List Byte) (s : State), s.Inv cfg → s.romPhase = .writable →
    (bytes.length ≤ 256 → ∃ t, serve cfg (.load bytes) s = (.done, some t) ∧
      (∀ a : Byte, memRead cfg a t =
        if h : a.toNat < bytes.length then some bytes[a.toNat] else memRead cfg a s) ∧
      (∀ r : Reg, t.reg r = s.reg r) ∧ SamePorts s t ∧ t.pc = s.pc ∧ t.romPhase = .writable ∧
      t.draws = s.draws) ∧
    (256 < bytes.length → serve cfg (.load bytes) s = (.usageError .programTooLong, some s))

/-- R182, R8: a request that is answered with a usage error or a refusal leaves the state as it was; a
step is never answered with a usage error, and nothing but a step with a refusal. That a usage error
leaves the state is the spec's own choice D21 (log 19), and so is the refusal of a step before the
freeze, D18 (log 16). -/
def Obligations.FailedRequestsChangeNothing : Prop :=
  ∀ (cfg : Config) (r : Request) (s : State) (after : Option State),
    (∀ e, serve cfg r s = (.usageError e, after) → after = some s ∧ r ≠ .step) ∧
    ∀ e, serve cfg r s = (.refused e, after) → after = some s ∧ r = .step

/-- R181: one request leaves no state exactly when it is a step that faults. That a fault leaves no
state is the spec's own choice (D21, log 19). A run also ends when the environment makes no more
requests (R203), of which this says nothing. -/
def Obligations.NoStateLeftIffStepFaults : Prop :=
  ∀ (cfg : Config) (r : Request) (s : State),
    (serve cfg r s).2 = none ↔ r = .step ∧ ∃ f, stepUnder cfg s = .fault f ∧
      serve cfg r s = (.fault f, none)

/-- R63: a value set on an input port is what the next `in` of that port reads, and a register that
`out` writes to an output port is what the output getter returns after that step. -/
def Obligations.PortsCarryValues : Prop :=
  (∀ (d : Reg) (p : Port) (v : Byte) (s t : State), inSet p.val v s = .ok t →
    ∃ u, exec (.inPort d p) t = .next u ∧ u.reg d = v) ∧
  ∀ (p : Port) (r : Reg) (s t : State), 8 ≤ p.val → exec (.outPort p r) s = .next t →
    outGet p.val t = .ok (s.reg r)

/-! ## The assembler -/

/-- R176: in every well-formed configuration and every vocabulary, an instruction line assembles
exactly when its tokens name an instruction, and then its bytes, with labels replaced by their
values, are that instruction's canonical encoding and decode to it. Which token stands where is the
spec's own choice (R166; D15, log 12; for `sub` also log 26), and so is the error of a wrong number of
tokens (R161, R172; D19, log 17). -/
def Obligations.LineAgreesWithDecoder : Prop :=
  ∀ (cfg : Config) (labels : List (Token × Byte)) (name : Token) (ops : List Token),
    cfg.wellFormed = true →
    (∀ (items : List Item) (bytes : List Byte), instrItems cfg name ops = .ok items →
      resolveItems labels items = .ok bytes →
      ∃ i : Instr, cfg.vocab.mnemonics.lookup name = some i.mnemonic ∧
        LineMeans cfg.vocab labels ops i ∧ bytes = encode cfg.opc i ∧
        decode cfg.opc bytes = .ok (i, [])) ∧
    ∀ i : Instr, cfg.vocab.mnemonics.lookup name = some i.mnemonic →
      LineMeans cfg.vocab labels ops i →
      ∃ items : List Item, instrItems cfg name ops = .ok items ∧
        resolveItems labels items = .ok (encode cfg.opc i)

/-- R176, R80, in every configuration and every vocabulary: what the assembler returns fits the
program store and is the concatenation of canonical encodings of instructions. The limit of 256
bytes is the spec's own choice (R175; D17, log 15). -/
def Obligations.AssembledIsCanonicalCode : Prop :=
  ∀ (cfg : Config) (text : String) (bytes : List Byte), assemble cfg text = .ok bytes →
    bytes.length ≤ 256 ∧ ∃ program : List Instr, bytes = program.flatMap (encode cfg.opc)

/-- R170: after all lines are processed every placeholder is replaced by its label's value and every
other byte is kept; a reference that no label resolves is an error. -/
def Obligations.LabelsAreResolved : Prop :=
  ∀ (labels : List (Token × Byte)) (items : List Item),
    (∀ bytes : List Byte, resolveItems labels items = .ok bytes ↔
      bytes.length = items.length ∧ ∀ k : Nat, ∀ (h : k < items.length) (h' : k < bytes.length),
        items[k] = .byte bytes[k] ∨
          ∃ name, items[k] = .labelRef name ∧ labels.lookup name = some bytes[k]) ∧
    (resolveItems labels items = .error .unresolvedLabel ↔
      ∃ name, .labelRef name ∈ items ∧ labels.lookup name = none)

/-- R162, R210: a label is bound to the number of bytes emitted so far less `LABEL_BIAS`; a taken
`bib` to it continues there and a `jmp` to it `JMP_ADJUST` lower. -/
def Obligations.LabelBiasAndJumpAdjust : Prop :=
  ∀ (cfg : Config) (name : Token) (st : AsmState),
    (st.labels.lookup name = none → cfg.labelBias.val ≤ st.out.length →
      st.out.length ≤ 255 + cfg.labelBias.val → ∃ st', bindLabel cfg name st = .ok st') ∧
    ∀ st' : AsmState, bindLabel cfg name st = .ok st' → ∃ v : Byte, resolveItem st'.labels (.labelRef name) = .ok v ∧
      v.toNat + cfg.labelBias.val = st.out.length ∧ st'.out = st.out ∧
      (∀ other, other ≠ name → st'.labels.lookup other = st.labels.lookup other) ∧
      ∀ (n : CondSel) (s t : State),
        (selected n s = true → execUnder cfg (.bib n v) s = .next t →
          t.pc.toNat + cfg.labelBias.val = st.out.length) ∧
        (execUnder cfg (.jmp v) s = .next t →
          t.pc.toNat + cfg.labelBias.val + cfg.jmpAdjust.val = st.out.length)
end

