-- ==== Sys2Proof/Laws/Config.lean ====
section
/-!
SUPPORT. What a well-formed configuration gives, and that the reference configuration is one.
-/

namespace Sys2Proof

/-- Every instruction is well-formed: its operand types carry their bounds (R78). -/
theorem Instr.wellFormed_all (i : Instr) : i.wellFormed = true := by
  cases i <;> simp [Instr.wellFormed, Instr.codes, codeBelow] <;> omega

theorem Mnemonic.mem_all (m : Mnemonic) : m ∈ Mnemonic.all := by cases m <;> decide

theorem Config.opc_injective {c : Config} (h : c.wellFormed = true) {m m' : Mnemonic}
    (e : c.opc m = c.opc m') : m = m' := by
  have h1 : c.opcDistinct = true := by
    simp only [Config.wellFormed, Bool.and_eq_true] at h; exact h.1.1
  have h2 := List.all_eq_true.mp (List.all_eq_true.mp h1 m m.mem_all) m' m'.mem_all
  simpa [e] using h2

theorem Config.opc_nop {c : Config} (h : c.wellFormed = true) : c.opc .nop = 0 := by
  simp only [Config.wellFormed, Bool.and_eq_true] at h
  simpa [Config.nopIsZero] using h.1.2

theorem Config.flags_distinct {c : Config} (h : c.wellFormed = true) :
    c.flagZ ≠ c.flagC ∧ c.flagZ ≠ c.flagS ∧ c.flagC ≠ c.flagS := by
  simp only [Config.wellFormed, Bool.and_eq_true] at h
  simpa [Config.flagsDistinct, and_assoc] using h.2

/-- Every opcode belongs to some mnemonic: sixteen distinct codes fill the four-bit space (R78). -/
theorem Config.opc_surjective {c : Config} (h : c.wellFormed = true) (n : Nibble) :
    ∃ m, c.opc m = n := by
  have hnd : (Mnemonic.all.map c.opc).Nodup :=
    List.Nodup.map (fun _ _ e => Config.opc_injective h e) (by decide)
  have hcard : (Mnemonic.all.map c.opc).toFinset.card = Fintype.card Nibble := by
    rw [List.toFinset_card_of_nodup hnd]; rfl
  have huniv := Finset.eq_univ_of_card _ hcard
  have hn : n ∈ (Mnemonic.all.map c.opc).toFinset := huniv ▸ Finset.mem_univ n
  simpa [Mnemonic.mem_all] using hn

theorem Machine.reference_wellFormed : Machine.reference.wellFormed = true := by decide

end Sys2Proof
end

