-- ==== Sys2Proof/Laws/Decode.lean ====
section
/-!
SUPPORT. The laws of nibbles and fields, of the opcode map's inverse, and what the decoder answers.
-/

namespace Sys2Proof

/-! ## Nibbles and fields -/

@[simp] theorem hiNibble_byteOf (h l : Nibble) : hiNibble (byteOf h l) = h := by
  revert h l; decide

@[simp] theorem loNibble_byteOf (h l : Nibble) : loNibble (byteOf h l) = l := by
  revert h l; decide

theorem byteOf_nibbles (b : Byte) : byteOf (hiNibble b) (loNibble b) = b := by
  revert b; decide

theorem hiNibble_toNat (b : Byte) : (hiNibble b).toNat = b.toNat / 16 := by
  revert b; decide

theorem loNibble_toNat (b : Byte) : (loNibble b).toNat = b.toNat % 16 := by
  revert b; decide

@[simp] theorem cellOf_cellCode (r : Fin 16) : cellOf (cellCode r) = r := rfl

@[simp] theorem cellCode_cellOf (n : Nibble) : cellCode (cellOf n) = n := rfl

@[simp] theorem cellOf_val (n : Nibble) : (cellOf n).val = n.toNat := rfl

@[simp] theorem condOf_condCode (c : CondSel) : condOf (condCode c) = c := by
  obtain ⟨src, k⟩ := c
  revert k; cases src <;> decide

@[simp] theorem condCode_condOf (n : Nibble) : condCode (condOf n) = n := by
  revert n; decide

theorem condOf_source (n : Nibble) : (condOf n).source = .flags ↔ 8 ≤ n.toNat := by
  revert n; decide

theorem condOf_bit (n : Nibble) : (condOf n).bit.val = n.toNat % 8 := by
  revert n; decide

/-! ## The opcode map's inverse -/

theorem mnemonicOf_opc {c : Config} (h : c.wellFormed = true) (m : Mnemonic) :
    mnemonicOf c.opc (c.opc m) = some m := by
  cases e : mnemonicOf c.opc (c.opc m) with
  | none => simpa using List.find?_eq_none.mp e m m.mem_all
  | some m' =>
    have : c.opc m' = c.opc m := by simpa [mnemonicOf] using List.find?_some e
    rw [Config.opc_injective h this]

/-- `mnemonicOf` inverts the opcode map (R39). -/
theorem mnemonicOf_eq_some {c : Config} (h : c.wellFormed = true) {n : Nibble} {m : Mnemonic} :
    mnemonicOf c.opc n = some m ↔ c.opc m = n := by
  constructor
  · intro e; simpa [mnemonicOf] using List.find?_some e
  · rintro rfl; exact mnemonicOf_opc h m

/-- Without any premise: the mnemonic found has the opcode looked for. -/
theorem opc_of_mnemonicOf {opc : OpcodeMap} {n : Nibble} {m : Mnemonic}
    (e : mnemonicOf opc n = some m) : opc m = n := by
  simpa [mnemonicOf] using List.find?_some e

/-! ## Length and fields of an instruction -/

theorem Mnemonic.length_cases (m : Mnemonic) : m.length = 1 ∨ m.length = 2 := by
  cases m <;> simp [Mnemonic.length]

@[simp] theorem Mnemonic.build_mnemonic (m : Mnemonic) (b1 b2 : Byte) :
    (m.build b1 b2).mnemonic = m := by
  cases m <;> rfl

theorem Instr.byte2_isSome (i : Instr) : i.byte2.isSome = decide (i.mnemonic.length = 2) := by
  cases i <;> rfl

/-- The fields of an instruction are exactly those its encoding carries (R72, R74). -/
theorem Instr.build_fields (opc : OpcodeMap) (i : Instr) :
    i.mnemonic.build (byteOf (opc i.mnemonic) i.nibble1) (i.byte2.getD 0) = i := by
  cases i <;> simp [Instr.mnemonic, Mnemonic.build, Instr.nibble1, Instr.byte2]

/-! ## What the decoder answers -/

/-- A one-byte instruction. -/
theorem decode_one {opc : OpcodeMap} {b1 : Byte} {rest : List Byte} {m : Mnemonic}
    (e : mnemonicOf opc (hiNibble b1) = some m) (l : m.length = 1) :
    decode opc (b1 :: rest) = .ok (m.build b1 0, rest) := by
  simp [decode, e, l]

/-- A two-byte instruction. -/
theorem decode_two {opc : OpcodeMap} {b1 b2 : Byte} {rest : List Byte} {m : Mnemonic}
    (e : mnemonicOf opc (hiNibble b1) = some m) (l : m.length = 2) :
    decode opc (b1 :: b2 :: rest) = .ok (m.build b1 b2, rest) := by
  simp [decode, e, l]

/-- Everything an accepting decoder can have done: it read one or two bytes, as the mnemonic's length
says, and made the instruction of them. -/
theorem decode_cases {opc : OpcodeMap} {bytes after : List Byte} {i : Instr}
    (h : decode opc bytes = .ok (i, after)) :
    ∃ b1 m, mnemonicOf opc (hiNibble b1) = some m ∧
      (m.length = 1 ∧ bytes = b1 :: after ∧ i = m.build b1 0 ∨
        m.length = 2 ∧ ∃ b2, bytes = b1 :: b2 :: after ∧ i = m.build b1 b2) := by
  cases bytes with
  | nil => simp [decode] at h
  | cons b1 rest =>
    cases e : mnemonicOf opc (hiNibble b1) with
    | none => simp [decode, e] at h
    | some m =>
      refine ⟨b1, m, e, ?_⟩
      rcases m.length_cases with l | l
      · rw [decode_one e l] at h
        simp only [Except.ok.injEq, Prod.mk.injEq] at h
        exact .inl ⟨l, by rw [h.2], h.1.symm⟩
      · cases rest with
        | nil => simp [decode, e, l] at h
        | cons b2 rest' =>
          rw [decode_two e l] at h
          simp only [Except.ok.injEq, Prod.mk.injEq] at h
          exact .inr ⟨l, b2, by rw [h.2], h.1.symm⟩

end Sys2Proof
end

