-- ==== Sys2Proof/Laws/Assembler.lean ====
section
/-!
SUPPORT. Spec lemmas of the assembler's operations.
-/

namespace Sys2Proof.Machine

theorem lookupName_ok {α : Type} {e : AsmError} {table : List (Token × α)} {t : Token} {v : α} :
    lookupName e table t = .ok v ↔ table.lookup t = some v := by
  unfold lookupName; cases table.lookup t <;> simp

theorem lookupName_error {α : Type} {e e' : AsmError} {table : List (Token × α)} {t : Token} :
    lookupName e table t = .error e' ↔ e = e' ∧ table.lookup t = none := by
  unfold lookupName; generalize table.lookup t = r; cases r <;> simp

theorem resolveItem_byte (labels : List (Token × Byte)) (b : Byte) :
    resolveItem labels (.byte b) = .ok b := rfl

/-- Resolution works item by item and joins. -/
theorem resolveItems_append {labels : List (Token × Byte)} {xs ys : List Item} {bytes : List Byte} :
    resolveItems labels (xs ++ ys) = .ok bytes ↔ ∃ as bs, resolveItems labels xs = .ok as ∧
      resolveItems labels ys = .ok bs ∧ bytes = as ++ bs := by
  induction xs generalizing bytes with
  | nil => simp [resolveItems, eq_comm]
  | cons x rest ih =>
    simp only [List.cons_append, resolveItems]
    cases hx : resolveItem labels x with
    | error e => simp
    | ok b =>
      cases h : resolveItems labels (rest ++ ys) with
      | error e =>
        simp only [Except.map, reduceCtorEq, false_iff]
        rintro ⟨as, bs, h1, h2, -⟩
        cases hr : resolveItems labels rest with
        | error e => simp [hr] at h1
        | ok cs => rw [(ih (bytes := cs ++ bs)).mpr ⟨cs, bs, hr, h2, rfl⟩] at h; cases h
      | ok cs =>
        obtain ⟨as, bs, h1, h2, rfl⟩ := ih.mp h
        simp [h1, h2, Except.map, eq_comm]

/-- Resolution keeps the number of items: a placeholder counts as one byte (R170). -/
theorem resolveItems_length {labels : List (Token × Byte)} {items : List Item} {bytes : List Byte}
    (h : resolveItems labels items = .ok bytes) : bytes.length = items.length := by
  induction items generalizing bytes with
  | nil => simp only [resolveItems, Except.ok.injEq] at h; simp [← h]
  | cons i rest ih =>
    simp only [resolveItems] at h
    cases hi : resolveItem labels i with
    | error e => simp [hi] at h
    | ok b =>
      cases hr : resolveItems labels rest with
      | error e => simp [hi, hr, Except.map] at h
      | ok bs =>
        simp only [hi, hr, Except.map, Except.ok.injEq] at h
        simp [← h, ih hr]

end Sys2Proof.Machine
end

