-- ==== Sys2Proof/Laws/State.lean ====
section
/-!
SUPPORT. One lemma per field per update of the state, so that no later proof unfolds a record update.
-/

namespace Sys2Proof.Machine

/-! ## A write to a register cell -/

@[simp] theorem State.setReg_pc (s : State) (r : Reg) (v : Byte) : (s.setReg r v).pc = s.pc := rfl

@[simp] theorem State.setReg_rom (s : State) (r : Reg) (v : Byte) : (s.setReg r v).rom = s.rom := rfl

@[simp] theorem State.setReg_romPhase (s : State) (r : Reg) (v : Byte) :
    (s.setReg r v).romPhase = s.romPhase := rfl

@[simp] theorem State.setReg_port (s : State) (r : Reg) (v : Byte) : (s.setReg r v).port = s.port := rfl

@[simp] theorem State.setReg_draws (s : State) (r : Reg) (v : Byte) :
    (s.setReg r v).draws = s.draws := rfl

@[simp] theorem State.readPort_setReg (s : State) (r : Reg) (v : Byte) (p : Port) :
    (s.setReg r v).readPort p = s.readPort p := rfl

/-- Plain addressable storage (R20): a register reads as the last value written to it. -/
theorem State.reg_setReg (s : State) (r r' : Reg) (v : Byte) :
    (s.setReg r v).reg r' = if r = r' then v else s.reg r' := by
  simp [State.reg, State.setReg, Vector.getElem_set, Fin.ext_iff]

@[simp] theorem State.reg_setReg_same (s : State) (r : Reg) (v : Byte) : (s.setReg r v).reg r = v := by
  simp [State.reg_setReg]

theorem State.reg_setReg_other (s : State) {r r' : Reg} (v : Byte) (h : r' ≠ r) :
    (s.setReg r v).reg r' = s.reg r' := by
  simp [State.reg_setReg, Ne.symm h]

/-! ## A write to a port cell -/

@[simp] theorem State.writePort_x (s : State) (p : Port) (v : Byte) : (s.writePort p v).x = s.x := rfl

@[simp] theorem State.writePort_pc (s : State) (p : Port) (v : Byte) : (s.writePort p v).pc = s.pc := rfl

@[simp] theorem State.writePort_rom (s : State) (p : Port) (v : Byte) :
    (s.writePort p v).rom = s.rom := rfl

@[simp] theorem State.writePort_romPhase (s : State) (p : Port) (v : Byte) :
    (s.writePort p v).romPhase = s.romPhase := rfl

@[simp] theorem State.writePort_draws (s : State) (p : Port) (v : Byte) :
    (s.writePort p v).draws = s.draws := rfl

@[simp] theorem State.reg_writePort (s : State) (p : Port) (v : Byte) (r : Reg) :
    (s.writePort p v).reg r = s.reg r := rfl

/-- A port cell reads as the last value written to it (R59). -/
theorem State.readPort_writePort (s : State) (p p' : Port) (v : Byte) :
    (s.writePort p v).readPort p' = if p = p' then v else s.readPort p' := by
  simp [State.readPort, State.writePort, Vector.getElem_set, Fin.ext_iff]

@[simp] theorem State.readPort_writePort_same (s : State) (p : Port) (v : Byte) :
    (s.writePort p v).readPort p = v := by
  simp [State.readPort_writePort]

/-! ## A write of the program counter -/

@[simp] theorem State.setPc_pc (s : State) (t : Byte) : (s.setPc t).pc = t := rfl

@[simp] theorem State.setPc_x (s : State) (t : Byte) : (s.setPc t).x = s.x := rfl

@[simp] theorem State.setPc_rom (s : State) (t : Byte) : (s.setPc t).rom = s.rom := rfl

@[simp] theorem State.setPc_romPhase (s : State) (t : Byte) : (s.setPc t).romPhase = s.romPhase := rfl

@[simp] theorem State.setPc_port (s : State) (t : Byte) : (s.setPc t).port = s.port := rfl

@[simp] theorem State.setPc_draws (s : State) (t : Byte) : (s.setPc t).draws = s.draws := rfl

@[simp] theorem State.reg_setPc (s : State) (t : Byte) (r : Reg) : (s.setPc t).reg r = s.reg r := rfl

@[simp] theorem State.readPort_setPc (s : State) (t : Byte) (p : Port) :
    (s.setPc t).readPort p = s.readPort p := rfl

/-! ## Two states with the same registers -/

/-- Two states are equal when every register, the program counter, the store, its phase, every port
and the draw counter are. -/
theorem State.ext_cells {s t : State} (hx : ∀ r, s.reg r = t.reg r) (hpc : s.pc = t.pc)
    (hrom : s.rom = t.rom) (hph : s.romPhase = t.romPhase) (hport : ∀ p, s.readPort p = t.readPort p)
    (hd : s.draws = t.draws) : s = t := by
  have h1 : s.x = t.x := Vector.ext fun i h => hx ⟨i, h⟩
  have h2 : s.port = t.port := Vector.ext fun i h => hport ⟨i, h⟩
  cases s; cases t; simp_all

end Sys2Proof.Machine
end

