-- ==== Sys2Proof/Laws/Fetch.lean ====
section
/-!
SUPPORT. Everything a fetch can do, and what fetching one instruction leaves behind.
-/

namespace Sys2Proof.Machine

/-- The program counter after the byte at `pc` has been fetched, if it can be advanced (R27). -/
def nextPc (cfg : Config) (pc : Byte) : Option Byte :=
  if pc = 255 then match cfg.pcOverflow with | .fault => none | .wrap => some 0 else some (pc + 1)

/-- A fetch that completes: on a frozen store, a cell that has a value, a counter that can advance, and
no effect but the counter's (R27). -/
theorem fetch_next {cfg : Config} {s u : State} {b : Byte} :
    fetch cfg s = .next (b, u) ↔ s.romPhase = .frozen ∧
      Memory.read cfg.romFill s.rom s.pc.toNat = some b ∧
      ∃ q, nextPc cfg s.pc = some q ∧ u = s.setPc q := by
  unfold fetch advance nextPc
  generalize Memory.read cfg.romFill s.rom s.pc.toNat = r
  cases s.romPhase <;> cases r <;> by_cases h : s.pc = 255 <;> cases cfg.pcOverflow <;>
    simp only [h, if_true, if_false, Host.Outcome.next.injEq, Prod.mk.injEq, Option.some.injEq,
      reduceCtorEq, true_and, false_and, and_false, exists_false, exists_eq_left', eq_comm (a := u)]

/-- Fetching an instruction changes nothing but the program counter, and happens only on a frozen
store. -/
theorem fetchInstr_next {cfg : Config} {s u : State} {i : Instr}
    (h : fetchInstr cfg s = .next (i, u)) : s.romPhase = .frozen ∧ ∃ q, u = s.setPc q := by
  unfold fetchInstr at h
  cases e1 : fetch cfg s with
  | fault f => simp [e1] at h
  | refused r => simp [e1] at h
  | next p =>
    obtain ⟨b1, s1⟩ := p
    obtain ⟨hf, -, q1, -, rfl⟩ := fetch_next.mp e1
    refine ⟨hf, ?_⟩
    simp only [e1] at h
    cases e2 : mnemonicOf cfg.opc (hiNibble b1) with
    | none => simp [e2] at h
    | some m =>
      simp only [e2] at h
      split at h
      · simp only [Host.Outcome.next.injEq, Prod.mk.injEq] at h
        exact ⟨q1, h.2.symm⟩
      · cases e3 : fetch cfg (s.setPc q1) with
        | fault f => simp [e3] at h
        | refused r => simp [e3] at h
        | next p =>
          obtain ⟨b2, s2⟩ := p
          obtain ⟨-, -, q2, -, rfl⟩ := fetch_next.mp e3
          simp only [e3, Host.Outcome.next.injEq, Prod.mk.injEq] at h
          exact ⟨q2, h.2.symm⟩

/-- A step that completes is a fetched instruction run (R39). -/
theorem runFetched_next {cfg : Config} {run : Instr → State → Result} {s t : State}
    (h : runFetched cfg run s = .next t) :
    ∃ i u, fetchInstr cfg s = .next (i, u) ∧ run i u = .next t := by
  unfold runFetched at h
  cases e : fetchInstr cfg s with
  | fault f => simp [e] at h
  | refused r => simp [e] at h
  | next p => exact ⟨p.1, p.2, rfl, by simpa [e] using h⟩

end Sys2Proof.Machine
end

