-- ==== Sys2Proof/Laws/Flags.lean ====
section
/-!
SUPPORT. What the flag updates and the ALU's two writes do, each said once.
-/

namespace Sys2Proof.Machine

/-- Setting a bit sets it and leaves the others. -/
theorem getLsbD_setBit (v : Byte) (f k : BitPos) :
    (setBit v f).getLsbD k.val = (v.getLsbD k.val || decide (k = f)) := by
  have h : (1#8 <<< f.val).getLsbD k.val = decide (k = f) := by revert f k; decide
  simp only [setBit, BitVec.getLsbD_or, h]

/-- Clearing a bit clears it and leaves the others. -/
theorem getLsbD_clearBit (v : Byte) (f k : BitPos) :
    (clearBit v f).getLsbD k.val = (v.getLsbD k.val && !decide (k = f)) := by
  have h : (1#8 <<< f.val).getLsbD k.val = decide (k = f) := by revert f k; decide
  simp only [clearBit, BitVec.getLsbD_and, BitVec.getLsbD_not, h]
  simp [k.isLt]

/-- Two states that differ at most in register cell 15. -/
def SameButFlags (s t : State) : Prop :=
  (∀ r : Reg, r ≠ 15 → t.reg r = s.reg r) ∧ t.pc = s.pc ∧ t.rom = s.rom ∧ t.romPhase = s.romPhase ∧
    t.port = s.port ∧ t.draws = s.draws

theorem SameButFlags.refl (s : State) : SameButFlags s s := ⟨fun _ _ => rfl, rfl, rfl, rfl, rfl, rfl⟩

theorem SameButFlags.trans {s t u : State} (h : SameButFlags s t) (h' : SameButFlags t u) :
    SameButFlags s u :=
  ⟨fun r hr => (h'.1 r hr).trans (h.1 r hr), h'.2.1.trans h.2.1, h'.2.2.1.trans h.2.2.1,
    h'.2.2.2.1.trans h.2.2.2.1, h'.2.2.2.2.1.trans h.2.2.2.2.1, h'.2.2.2.2.2.trans h.2.2.2.2.2⟩

/-- A flag update takes the bit `b` at position `k` of cell 15 to `upd k b`, in every state, and
changes nothing else. -/
structure FlagUpdate (update : State → State) (upd : BitPos → Bool → Bool) : Prop where
  frame : ∀ s, SameButFlags s (update s)
  bits : ∀ s k, ((update s).reg 15).getLsbD k.val = upd k ((s.reg 15).getLsbD k.val)

theorem sameButFlags_setReg (s : State) (v : Byte) : SameButFlags s (s.setReg 15 v) :=
  ⟨fun _ hr => State.reg_setReg_other s v hr, rfl, rfl, rfl, rfl, rfl⟩

theorem flagUpdate_setflagIf (c : Bool) (f : BitPos) :
    FlagUpdate (fun s => s.setflagIf c f) fun k b => b || decide (k = f ∧ c = true) where
  frame s := by
    cases c
    · exact .refl s
    · exact sameButFlags_setReg s _
  bits s k := by
    cases c
    · simp [State.setflagIf]
    · show (((s.setReg 15 _).reg 15).getLsbD k.val) = _
      rw [State.reg_setReg_same, getLsbD_setBit]
      simp only [and_true]

theorem flagUpdate_sum (cfg : Config) (raw : Nat) :
    FlagUpdate (sumFlags cfg raw) fun k b => b || decide (k = cfg.flagC ∧ 255 < raw) := by
  have h := flagUpdate_setflagIf (decide (255 < raw)) cfg.flagC
  simp only [decide_eq_true_eq] at h
  exact h

theorem flagUpdate_difference (cfg : Config) (raw : Int) :
    FlagUpdate (differenceFlags cfg raw) fun k b =>
      (b || decide (k = cfg.flagS ∧ raw < 0)) || decide (k = cfg.flagZ ∧ raw = 0) where
  frame s := ((flagUpdate_setflagIf _ _).frame s).trans ((flagUpdate_setflagIf _ _).frame _)
  bits s k := by
    have h1 := (flagUpdate_setflagIf (decide (raw < 0)) cfg.flagS).bits s k
    have h2 := (flagUpdate_setflagIf (decide (raw = 0)) cfg.flagZ).bits
      (s.setflagIf (decide (raw < 0)) cfg.flagS) k
    simp only [differenceFlags, h2, h1, decide_eq_true_eq]

theorem flagUpdate_logic (cfg : Config) (r : Byte) :
    FlagUpdate (logicFlags cfg r) fun k b => b || decide (k = cfg.flagZ ∧ r = 0) := by
  have h := flagUpdate_setflagIf (decide (r = 0)) cfg.flagZ
  simp only [decide_eq_true_eq] at h
  exact h

theorem flagUpdate_nor (cfg : Config) (r : Byte) :
    FlagUpdate (norFlags cfg r) fun k b =>
      b || decide (k = cfg.flagZ ∧ cfg.norZTest = .masked ∧ r = 0) := by
  cases e : cfg.norZTest with
  | masked =>
    have h : norFlags cfg r = logicFlags cfg r := by funext s; simp only [norFlags, e]
    simpa only [h, true_and] using flagUpdate_logic cfg r
  | never => exact ⟨fun s => by simpa [norFlags, e] using SameButFlags.refl s,
      fun s k => by simp [norFlags, e]⟩

theorem flagUpdate_rotate (cfg : Config) (c : Bool) :
    FlagUpdate (rotateFlags cfg c) fun k b => if k = cfg.flagC then c else b where
  frame s := sameButFlags_setReg s _
  bits s k := by
    show (((s.setReg 15 _).reg 15).getLsbD k.val) = _
    rw [State.reg_setReg_same]
    by_cases hk : k = cfg.flagC <;> cases c <;>
      simp only [hk, getLsbD_setBit, getLsbD_clearBit, if_true, if_false, decide_true, decide_false,
        Bool.or_true, Bool.or_false, Bool.and_false, Bool.and_true, Bool.not_true, Bool.not_false,
        Bool.false_eq_true]

/-- Everything the ALU's two writes can do, whichever comes first (R110, R118). -/
theorem aluWrite_spec {update : State → State} {upd : BitPos → Bool → Bool}
    (h : FlagUpdate update upd) (order : AluOrder) (d : Reg) (v : Byte) (s : State) :
    let t := aluWrite order update d v s
    (∀ r : Reg, r ≠ d → r ≠ 15 → t.reg r = s.reg r) ∧ t.pc = s.pc ∧ t.rom = s.rom ∧
      t.romPhase = s.romPhase ∧ t.port = s.port ∧ t.draws = s.draws ∧
      (d ≠ 15 → t.reg d = v ∧
        ∀ k : BitPos, (t.reg 15).getLsbD k.val = upd k ((s.reg 15).getLsbD k.val)) ∧
      (d = 15 → order = .flagsFirst → t.reg 15 = v) ∧
      (d = 15 → order = .resultFirst → ∀ k : BitPos,
        (t.reg 15).getLsbD k.val = upd k (v.getLsbD k.val)) := by
  cases order with
  | flagsFirst =>
    obtain ⟨hr, hpc, hrom, hph, hport, hdr⟩ := h.frame s
    refine ⟨fun r hd h15 => ?_, by simpa [aluWrite] using hpc, by simpa [aluWrite] using hrom,
      by simpa [aluWrite] using hph, by simpa [aluWrite] using hport, by simpa [aluWrite] using hdr,
      fun hd => ⟨by simp [aluWrite], fun k => ?_⟩, ?_, by simp⟩
    · simp only [aluWrite]; rw [State.reg_setReg_other _ _ hd, hr r h15]
    · simp only [aluWrite]; rw [State.reg_setReg_other _ _ (Ne.symm hd), h.bits]
    · rintro rfl _; simp [aluWrite]
  | resultFirst =>
    obtain ⟨hr, hpc, hrom, hph, hport, hdr⟩ := h.frame (s.setReg d v)
    refine ⟨fun r hd h15 => ?_, by simpa [aluWrite] using hpc, by simpa [aluWrite] using hrom,
      by simpa [aluWrite] using hph, by simpa [aluWrite] using hport, by simpa [aluWrite] using hdr,
      fun hd => ⟨?_, fun k => ?_⟩, by simp, ?_⟩
    · simp only [aluWrite]; rw [hr r h15, State.reg_setReg_other _ _ hd]
    · simp only [aluWrite]; rw [hr d hd, State.reg_setReg_same]
    · simp only [aluWrite]; rw [h.bits, State.reg_setReg_other _ _ (Ne.symm hd)]
    · rintro rfl _ k; simp only [aluWrite]; rw [h.bits, State.reg_setReg_same]

end Sys2Proof.Machine
end

