-- ==== Sys2Proof/Laws/Exec.lean ====
section
/-!
SUPPORT. `exec` and `step` are the parametrised machine at the reference configuration, and what any
instruction leaves alone.
-/

namespace Sys2Proof.Machine

theorem exec_eq_execUnder (i : Instr) (s : State) : exec i s = execUnder reference i s := by
  cases i <;> rfl

theorem step_eq_stepUnder (s : State) : step s = stepUnder reference s := by
  have : exec = execUnder reference := by funext i s; exact exec_eq_execUnder i s
  simp only [step, stepUnder, this]

/-- No instruction writes the program store or its phase (R29, R66). -/
theorem execUnder_store {cfg : Config} {i : Instr} {s t : State} (h : execUnder cfg i s = .next t) :
    t.rom = s.rom ∧ t.romPhase = s.romPhase := by
  have alu {update : State → State} {upd : BitPos → Bool → Bool} (hu : FlagUpdate update upd)
      {o : AluOrder} {d : Reg} {v : Byte} (e : aluWrite o update d v s = t) :
      t.rom = s.rom ∧ t.romPhase = s.romPhase := by
    have := aluWrite_spec hu o d v s
    rw [e] at this
    exact ⟨this.2.2.1, this.2.2.2.1⟩
  cases i <;> simp only [execUnder, nopUnder, addUnder, subUnder, andUnder, orUnder, norUnder,
    xorUnder, incUnder, rolrUnder, rnvUnder, storeDraw, bibUnder, jmpUnder, movUnder, ldiUnder,
    inPortUnder, outPortUnder, Host.Outcome.next.injEq] at h
  case nop => subst h; exact ⟨rfl, rfl⟩
  case add => exact alu (flagUpdate_sum cfg _) h
  case sub => exact alu (flagUpdate_difference cfg _) h
  case and => exact alu (flagUpdate_logic cfg _) h
  case or => exact alu (flagUpdate_logic cfg _) h
  case nor => exact alu (flagUpdate_nor cfg _) h
  case xor => exact alu (flagUpdate_logic cfg _) h
  case inc => exact alu (flagUpdate_sum cfg _) h
  case rolr => exact alu (flagUpdate_rotate cfg _) h
  case rnv => subst h; exact ⟨rfl, rfl⟩
  case bib => subst h; split <;> exact ⟨rfl, rfl⟩
  case jmp =>
    split at h
    · cases h
    · simp only [Host.Outcome.next.injEq] at h; subst h; exact ⟨rfl, rfl⟩
  case mov => subst h; exact ⟨rfl, rfl⟩
  case ldi => subst h; exact ⟨rfl, rfl⟩
  case inPort => subst h; exact ⟨rfl, rfl⟩
  case outPort => subst h; exact ⟨rfl, rfl⟩

/-- A completed step happened on a frozen store and left the store as it was. -/
theorem stepUnder_store {cfg : Config} {s t : State} (h : stepUnder cfg s = .next t) :
    s.romPhase = .frozen ∧ t.rom = s.rom ∧ t.romPhase = s.romPhase := by
  obtain ⟨i, u, hf, hr⟩ := runFetched_next h
  obtain ⟨hph, q, rfl⟩ := fetchInstr_next hf
  have h := execUnder_store hr
  exact ⟨hph, h.1, h.2⟩

end Sys2Proof.Machine
end

