-- ==== Sys2Proof/Laws/Memory.lean ====
section
/-!
SUPPORT. The program store: read after write, and that every operation keeps the canonical form.
-/

namespace Sys2Proof.Machine

theorem Memory.lookup_insert (m : Memory) (a a' : Nat) (b : Byte) :
    (m.insert a b).lookup a' = if a = a' then some b else m.lookup a' := by
  induction m with
  | nil => simp [Memory.insert, Memory.lookup]
  | cons c rest ih =>
    obtain ⟨k, v⟩ := c
    simp only [Memory.insert]
    split
    · simp only [Memory.lookup]
    · split
      · subst_vars; simp only [Memory.lookup]; split <;> rfl
      · simp only [Memory.lookup, ih]
        split <;> split <;> simp_all

/-- Below its first address a rising list has no entry. -/
theorem Memory.lookup_of_rises {m : Memory} {low a : Nat} (h : m.risesFrom low = true) (l : a < low) :
    m.lookup a = none := by
  induction m generalizing low with
  | nil => rfl
  | cons c rest ih =>
    obtain ⟨k, v⟩ := c
    simp only [Memory.risesFrom, Bool.and_eq_true, decide_eq_true_eq] at h
    simp only [Memory.lookup]
    rw [if_neg (by omega)]
    exact ih h.2 (by omega)

theorem Memory.lookup_erase {m : Memory} {low : Nat} (h : m.risesFrom low = true) (a a' : Nat) :
    (m.erase a).lookup a' = if a = a' then none else m.lookup a' := by
  induction m generalizing low with
  | nil => simp [Memory.erase, Memory.lookup]
  | cons c rest ih =>
    obtain ⟨k, v⟩ := c
    simp only [Memory.risesFrom, Bool.and_eq_true, decide_eq_true_eq] at h
    simp only [Memory.erase]
    split
    · subst_vars
      simp only [Memory.lookup]
      split
      · subst_vars; exact Memory.lookup_of_rises h.2 (by omega)
      · rfl
    · simp only [Memory.lookup, ih h.2]
      split <;> split <;> simp_all

theorem Memory.risesFrom_insert {m : Memory} {low a : Nat} (b : Byte) (h : m.risesFrom low = true)
    (l : low ≤ a) (u : a < 256) : (m.insert a b).risesFrom low = true := by
  induction m generalizing low with
  | nil => simp [Memory.insert, Memory.risesFrom, l, u]
  | cons c rest ih =>
    obtain ⟨k, v⟩ := c
    simp only [Memory.risesFrom, Bool.and_eq_true, decide_eq_true_eq] at h
    simp only [Memory.insert]
    split
    · simp [Memory.risesFrom, *]
    · split
      · subst_vars; simp [Memory.risesFrom, *]
      · simp only [Memory.risesFrom, Bool.and_eq_true, decide_eq_true_eq]
        exact ⟨h.1, ih h.2 (by omega)⟩

theorem Memory.risesFrom_mono {m : Memory} {low low' : Nat} (h : m.risesFrom low = true)
    (l : low' ≤ low) : m.risesFrom low' = true := by
  cases m with
  | nil => rfl
  | cons c rest =>
    simp only [Memory.risesFrom, Bool.and_eq_true, decide_eq_true_eq] at h ⊢
    exact ⟨⟨by omega, h.1.2⟩, h.2⟩

theorem Memory.risesFrom_erase {m : Memory} {low : Nat} (a : Nat) (h : m.risesFrom low = true) :
    (m.erase a).risesFrom low = true := by
  induction m generalizing low with
  | nil => rfl
  | cons c rest ih =>
    obtain ⟨k, v⟩ := c
    simp only [Memory.risesFrom, Bool.and_eq_true, decide_eq_true_eq] at h
    simp only [Memory.erase]
    split
    · exact Memory.risesFrom_mono h.2 (by omega)
    · simp only [Memory.risesFrom, Bool.and_eq_true, decide_eq_true_eq]
      exact ⟨h.1, ih h.2⟩

theorem Memory.mem_insert {m : Memory} {a : Nat} {b : Byte} {c : Host.Cell}
    (h : c ∈ m.insert a b) : c = (a, b) ∨ c ∈ m := by
  induction m with
  | nil => simpa [Memory.insert] using h
  | cons d rest ih =>
    obtain ⟨k, v⟩ := d
    simp only [Memory.insert] at h
    split at h
    · simpa using h
    · split at h
      · simp only [List.mem_cons] at h ⊢; tauto
      · simp only [List.mem_cons] at h ⊢; tauto

theorem Memory.mem_erase {m : Memory} {a : Nat} {c : Host.Cell} (h : c ∈ m.erase a) : c ∈ m := by
  induction m with
  | nil => simp [Memory.erase] at h
  | cons d rest ih =>
    obtain ⟨k, v⟩ := d
    simp only [Memory.erase] at h
    split at h
    · exact List.mem_cons_of_mem _ h
    · simp only [List.mem_cons] at h ⊢; tauto

theorem Memory.wf_iff {fill : Option Byte} {m : Memory} :
    m.wf fill = true ↔ m.risesFrom 0 = true ∧ ∀ c ∈ m, fill ≠ some c.2 := by
  simp [Memory.wf]

/-- A write keeps the canonical form. -/
theorem Memory.wf_write {fill : Option Byte} {m : Memory} (h : m.wf fill = true) {a : Nat} (b : Byte)
    (l : a < 256) : (m.write fill a b).wf fill = true := by
  rw [Memory.wf_iff] at h ⊢
  unfold Memory.write
  split
  · exact ⟨Memory.risesFrom_erase a h.1, fun c hc => h.2 c (Memory.mem_erase hc)⟩
  · refine ⟨Memory.risesFrom_insert b h.1 (Nat.zero_le a) l, fun c hc => ?_⟩
    rcases Memory.mem_insert hc with rfl | hm
    · assumption
    · exact h.2 c hm

/-- Read after write: the cell written reads as the byte written, every other cell as before. -/
theorem Memory.read_write {fill : Option Byte} {m : Memory} (h : m.wf fill = true) (a a' : Nat)
    (b : Byte) : (m.write fill a b).read fill a' = if a = a' then some b else m.read fill a' := by
  rw [Memory.wf_iff] at h
  by_cases e : fill = some b
  · simp only [Memory.write, Memory.read, if_pos e, Memory.lookup_erase h.1]
    by_cases ha : a = a' <;> simp [ha, e]
  · simp only [Memory.write, Memory.read, if_neg e, Memory.lookup_insert]
    by_cases ha : a = a' <;> simp [ha]

end Sys2Proof.Machine
end

