-- ==== Sys2Proof/Laws/Environment.lean ====
section
/-!
SUPPORT. What the environment's operations do, each said once.
-/

namespace Sys2Proof.Machine

/-- A loader write that is accepted (R51). -/
theorem memWrite_ok {cfg : Config} {addr v : Byte} {s t : State} :
    memWrite cfg addr v s = .ok t ↔ s.romPhase = .writable ∧
      t = { s with rom := Memory.write cfg.romFill s.rom addr.toNat v } := by
  unfold memWrite; cases s.romPhase <;> simp [eq_comm]

/-- A loader write that is rejected (R51, R182). -/
theorem memWrite_error {cfg : Config} {addr v : Byte} {s : State} {e : UsageError} :
    memWrite cfg addr v s = .error e ↔ s.romPhase = .frozen ∧ e = .romWriteAfterFreeze := by
  unfold memWrite; cases s.romPhase <;> simp [eq_comm]

@[simp] theorem freeze_romPhase (s : State) : (freeze s).romPhase = .frozen := rfl
@[simp] theorem freeze_rom (s : State) : (freeze s).rom = s.rom := rfl
@[simp] theorem freeze_pc (s : State) : (freeze s).pc = s.pc := rfl
@[simp] theorem freeze_reg (s : State) (r : Reg) : (freeze s).reg r = s.reg r := rfl
@[simp] theorem freeze_readPort (s : State) (p : Port) : (freeze s).readPort p = s.readPort p := rfl
@[simp] theorem freeze_draws (s : State) : (freeze s).draws = s.draws := rfl

/-- A second freeze has no effect (R53; D18, log 16). -/
theorem freeze_of_frozen {s : State} (h : s.romPhase = .frozen) : freeze s = s := by
  cases s; cases h; rfl

/-- An accepted input setting (R54). -/
theorem inSet_ok {addr : Nat} {v : Byte} {s t : State} :
    inSet addr v s = .ok t ↔ ∃ h : addr < 8, t = s.writePort ⟨addr, by omega⟩ v := by
  unfold inSet; split <;> simp_all [eq_comm]

/-- The loader writes of a sequence touch nothing but the program store, and only a writable one. -/
theorem writeBytes_ok {cfg : Config} {bytes : List Byte} {addr : Nat} {s t : State}
    (h : writeBytes cfg addr bytes s = .ok t) :
    (∃ m, t = { s with rom := m }) ∧ (s.romPhase = .frozen → t = s) := by
  induction bytes generalizing addr s with
  | nil =>
    simp only [writeBytes, Except.ok.injEq] at h
    subst h
    exact ⟨⟨s.rom, rfl⟩, fun _ => rfl⟩
  | cons b rest ih =>
    simp only [writeBytes] at h
    cases e : memWrite cfg (BitVec.ofNat 8 addr) b s with
    | error e' => simp [e] at h
    | ok u =>
      simp only [e] at h
      obtain ⟨hw, rfl⟩ := memWrite_ok.mp e
      obtain ⟨⟨m, rfl⟩, -⟩ := ih h
      exact ⟨⟨m, rfl⟩, fun hf => by rw [hw] at hf; cases hf⟩

end Sys2Proof.Machine
end

