-- ==== Sys2Proof/Laws/PerInstr.lean ====
section
/-!
SUPPORT. Facts about every instruction as a term, one lemma per constructor.

`Fields`: the bytes of an instruction's encoding give back every operand.
-/

namespace Sys2Proof.Laws.Fields

/-- The fields read from the encoded bytes are the instruction's operands (R72, R74). -/
def Statement (i : Instr) : Prop :=
  ∀ opc : OpcodeMap,
    i.mnemonic.build (byteOf (opc i.mnemonic) i.nibble1) (i.byte2.getD 0) = i

theorem nop : Statement .nop := fun opc => Instr.build_fields opc _

theorem add (d s1 s2 : Reg) : Statement (.add d s1 s2) := fun opc => Instr.build_fields opc _

theorem sub (d s1 s2 : Reg) : Statement (.sub d s1 s2) := fun opc => Instr.build_fields opc _

theorem and (d s1 s2 : Reg) : Statement (.and d s1 s2) := fun opc => Instr.build_fields opc _

theorem or (d s1 s2 : Reg) : Statement (.or d s1 s2) := fun opc => Instr.build_fields opc _

theorem nor (d s1 s2 : Reg) : Statement (.nor d s1 s2) := fun opc => Instr.build_fields opc _

theorem xor (d s1 s2 : Reg) : Statement (.xor d s1 s2) := fun opc => Instr.build_fields opc _

theorem inc (d : Reg) : Statement (.inc d) := fun opc => Instr.build_fields opc _

theorem rolr (d : Reg) : Statement (.rolr d) := fun opc => Instr.build_fields opc _

theorem rnv (d : Reg) : Statement (.rnv d) := fun opc => Instr.build_fields opc _

theorem bib (n : CondSel) (t : Byte) : Statement (.bib n t) := fun opc => Instr.build_fields opc _

theorem jmp (t : Byte) : Statement (.jmp t) := fun opc => Instr.build_fields opc _

theorem mov (d s : Reg) : Statement (.mov d s) := fun opc => Instr.build_fields opc _

theorem ldi (d : Reg) (imm : Byte) : Statement (.ldi d imm) := fun opc => Instr.build_fields opc _

theorem inPort (d : Reg) (p : Port) : Statement (.inPort d p) :=
  fun opc => Instr.build_fields opc _

theorem outPort (p : Port) (r : Reg) : Statement (.outPort p r) :=
  fun opc => Instr.build_fields opc _

end Sys2Proof.Laws.Fields
end

