-- ==== Sys2Proof/Tests/Slice0.lean ====
section
/-!
SUPPORT. The model's own tests. Every expected value is taken from spec/95_test_vectors.md (the vector is
named) or from the rule named; one step at most each. The last section shows, for every statement with
hypotheses, a concrete state and operands that meet them.
-/

namespace Sys2Proof.Tests

open Sys2Proof.Machine

/-- A frozen machine with some bytes at address `a`, where the program counter stands, and some
registers set. -/
def loaded (a : Nat) (bytes : List Byte) (regs : List (Reg × Byte)) : State :=
  let s := { State.reset with
    pc := BitVec.ofNat 8 a
    rom := bytes.zipIdx.map fun p => (a + p.2, p.1)
    romPhase := .frozen }
  regs.foldl (fun s p => s.setReg p.1 p.2) s

/-- A view of the next state, if the step has one. -/
def after {α : Type} (r : Result) (f : State → α) : Option α :=
  match r with
  | .next t => some (f t)
  | .fault _ => none
  | .refused _ => none

/-- The fault a step ends in. -/
def faultOf (r : Result) : Option Fault :=
  match r with
  | .fault f => some f
  | .next _ => none
  | .refused _ => none

/-- The refusal a step ends in. -/
def refusalOf (r : Result) : Option Refusal :=
  match r with
  | .refused e => some e
  | .next _ => none
  | .fault _ => none

/-- The reply and a view of the state of a sequence of requests in the reference configuration. -/
def session {α : Type} (rs : List Request) (s : State) (f : State → α) : List Reply × Option α :=
  let r := serveAll reference rs s
  (r.1, r.2.map f)

/-- The assembler's answer in plain numbers, or its error. -/
def assembled (cfg : Config) (text : String) : Except AsmError (List Nat) :=
  (assemble cfg text).map fun bs => bs.map BitVec.toNat

/-- An assembler's answer as decidable data. -/
def asData {α : Type} (r : Except AsmError α) : Option AsmError × Option α :=
  match r with
  | .ok v => (none, some v)
  | .error e => (some e, none)

/-! ## Well-formedness: an ill-formed term for each check -/

theorem test_codeBelow_refuses_sixteen : codeBelow 16 16 = false ∧ codeBelow 16 15 = true := by decide

theorem test_wellFormed_accepts_every_instruction (i : Instr) : i.wellFormed = true :=
  i.wellFormed_all

theorem test_reference_wellFormed : reference.wellFormed = true := by decide

/-- Two mnemonics with one opcode are refused. -/
theorem test_wellFormed_refuses_shared_opcode :
    ({ reference with opc := fun m => if m = .add then 2 else referenceOpc m } : Config).opcDistinct
      = false := by decide

/-- `OPC(nop) = 1` is refused (R5). -/
theorem test_wellFormed_refuses_nop_one :
    ({ reference with
        opc := fun m => if m = .nop then 1 else if m = .add then 0 else referenceOpc m } :
      Config).nopIsZero = false := by decide

/-- Two flags at one position are refused, whichever two. -/
theorem test_wellFormed_refuses_shared_flag :
    ({ reference with flagZ := 1 } : Config).flagsDistinct = false ∧
      ({ reference with flagS := 0 } : Config).flagsDistinct = false ∧
      ({ reference with flagC := 2 } : Config).flagsDistinct = false := by decide

/-- The canonical form refuses an unsorted list, an address of 256, and an entry equal to the fill. -/
theorem test_memory_form_refuses :
    Memory.wf none [(1, 5), (0, 6)] = false ∧ Memory.wf none [(256, 5)] = false ∧
      Memory.wf (some 5) [(0, 5)] = false ∧ Memory.wf none [(0, 6), (255, 5)] = true := by decide

/-! ## Decoding: every constructor, the words written out from the formats of R72 and the map of R75 -/

/-- `0000 ....`, the operand nibble ignored (R77). -/
theorem test_decode_nop :
    decodeTableWord 8 0b00000000 = some .nop ∧ decodeTableWord 8 0b00001111 = some .nop := by decide

/-- `0001 dddd` `aaaa bbbb`; the second byte stands in the word's bits 15..8. -/
theorem test_decode_add : decodeTableWord 16 0b00000001_00010010 = some (.add 2 0 1) := by decide

theorem test_decode_sub : decodeTableWord 16 0b00100000_00100011 = some (.sub 3 2 0) := by decide

theorem test_decode_and : decodeTableWord 16 0b01000001_00110101 = some (.and 5 4 1) := by decide

theorem test_decode_or : decodeTableWord 16 0b00000001_01000010 = some (.or 2 0 1) := by decide

theorem test_decode_nor : decodeTableWord 16 0b00000001_01010011 = some (.nor 3 0 1) := by decide

theorem test_decode_xor : decodeTableWord 16 0b00000010_01100100 = some (.xor 4 0 2) := by decide

theorem test_decode_inc : decodeTableWord 8 0b01110001 = some (.inc 1) := by decide

theorem test_decode_rolr : decodeTableWord 8 0b10001111 = some (.rolr 15) := by decide

theorem test_decode_rnv : decodeTableWord 8 0b10010010 = some (.rnv 2) := by decide

/-- `1010 nnnn` `tttt tttt`: selector 10 is bit 2 of the flags, selector 7 bit 7 of register 0. -/
theorem test_decode_bib :
    decodeTableWord 16 0b00001110_10101010 = some (.bib ⟨.flags, 2⟩ 14) ∧
      decodeTableWord 16 0b00010010_10100111 = some (.bib ⟨.reg0, 7⟩ 18) := by decide

/-- `1011 ....` `tttt tttt`, the operand nibble ignored. -/
theorem test_decode_jmp :
    decodeTableWord 16 0b11111101_10110000 = some (.jmp 253) ∧
      decodeTableWord 16 0b00000000_10110101 = some (.jmp 0) := by decide

/-- `1100 dddd` `ssss ....`, the low nibble ignored. -/
theorem test_decode_mov : decodeTableWord 16 0b01010111_11000000 = some (.mov 0 5) := by decide

theorem test_decode_ldi : decodeTableWord 16 0b11111111_11011110 = some (.ldi 14 255) := by decide

theorem test_decode_in : decodeTableWord 16 0b10010000_11100010 = some (.inPort 2 9) := by decide

/-- `1111 rrrr` `pppp ....`: the register is in the first byte. -/
theorem test_decode_out : decodeTableWord 16 0b10001001_11110010 = some (.outPort 8 2) := by decide

/-- A table word shorter than the instruction has operand bytes of zeros. -/
theorem test_decode_short_word : decodeTableWord 8 0x1F = some (.add 15 0 0) := by decide

/-- The canonical encodings of R176's worked example. -/
theorem test_encode_P1 :
    ([.ldi 0 5, .ldi 1 3, .add 2 0 1, .outPort 8 2].flatMap (encode referenceOpc)) =
      [0xD0, 0x05, 0xD1, 0x03, 0x12, 0x01, 0xF2, 0x80] := by decide

/-! ## Single instructions (spec/95_test_vectors.md, part 2) -/

/-- V98. -/
theorem test_nop : after (step (loaded 7 [0x00] [])) (fun t => (t.pc, t.reg 15)) = some (8, 0) := by
  decide

/-- V99. -/
theorem test_nop_ignored_nibble :
    after (step (loaded 7 [0x0F] [(15, 0x07)])) (fun t => (t.pc, t.reg 15)) = some (8, 0x07) := by
  decide

/-- V1, S3. -/
theorem test_add_carry :
    after (step (loaded 0 [0x12, 0x01] [(0, 0xC8), (1, 0x64)]))
      (fun t => (t.reg 2, t.reg 15, t.pc)) = some (0x2C, 0x02, 2) := by decide

/-- V8: the result overwrites the carry just set. -/
theorem test_add_to_flags :
    after (step (loaded 0 [0x1F, 0x01] [(0, 0xC8), (1, 0x64)])) (fun t => t.reg 15) = some 0x2C := by
  decide

/-- V10, S4. -/
theorem test_sub_borrow :
    after (step (loaded 0 [0x22, 0x01] [(0, 0x05), (1, 0x07)]))
      (fun t => (t.reg 2, t.reg 15, t.pc)) = some (0xFE, 0x04, 2) := by decide

/-- V14: bit 7 of the result is not the sign flag. -/
theorem test_sub_no_sign :
    after (step (loaded 0 [0x22, 0x01] [(0, 0x90), (1, 0x10)])) (fun t => (t.reg 2, t.reg 15)) =
      some (0x80, 0x00) := by decide

/-- V20. -/
theorem test_and :
    after (step (loaded 0 [0x32, 0x01] [(0, 0xF0), (1, 0x3C)])) (fun t => (t.reg 2, t.reg 15)) =
      some (0x30, 0x00) := by decide

/-- V21. -/
theorem test_and_zero :
    after (step (loaded 0 [0x32, 0x01] [(0, 0xF0), (1, 0x0F)])) (fun t => (t.reg 2, t.reg 15)) =
      some (0x00, 0x01) := by decide

/-- V25: a stale zero flag stays. -/
theorem test_or_stale_zero :
    after (step (loaded 0 [0x42, 0x01] [(0, 0x81), (1, 0x18), (15, 0x01)]))
      (fun t => (t.reg 2, t.reg 15)) = some (0x99, 0x01) := by decide

/-- V24. -/
theorem test_or_zero :
    after (step (loaded 0 [0x42, 0x01] [])) (fun t => t.reg 15) = some 0x01 := by decide

/-- V26. -/
theorem test_nor_zero :
    after (step (loaded 0 [0x52, 0x01] [(0, 0x0F), (1, 0xF0), (2, 0x55)]))
      (fun t => (t.reg 2, t.reg 15)) = some (0x00, 0x01) := by decide

/-- V27: under `NOR_Z_TEST = never` no flag is set. -/
theorem test_nor_never :
    after (stepUnder { reference with norZTest := .never }
      (loaded 0 [0x52, 0x01] [(0, 0x0F), (1, 0xF0), (2, 0x55)])) (fun t => (t.reg 2, t.reg 15)) =
      some (0x00, 0x00) := by decide

/-- V30. -/
theorem test_xor :
    after (step (loaded 0 [0x62, 0x01] [(0, 0xFF), (1, 0x0F)])) (fun t => (t.reg 2, t.reg 15)) =
      some (0xF0, 0x00) := by decide

/-- V32: zero is set, then overwritten by the result. -/
theorem test_xor_to_flags :
    after (step (loaded 0 [0x6F, 0x01] [(0, 0x33), (1, 0x33), (15, 0x06)])) (fun t => t.reg 15) =
      some 0x00 := by decide

/-- V41: the wrap sets carry and not zero. -/
theorem test_inc_wrap :
    after (step (loaded 0 [0x71] [(1, 0xFF)])) (fun t => (t.reg 1, t.reg 15, t.pc)) =
      some (0x00, 0x02, 1) := by decide

/-- V43. -/
theorem test_inc_flags :
    after (step (loaded 0 [0x7F] [(15, 0xFF)])) (fun t => t.reg 15) = some 0x00 := by decide

/-- V47: carry is cleared, zero and sign are kept. -/
theorem test_rolr_clears_carry :
    after (step (loaded 0 [0x80] [(15, 0x07)])) (fun t => (t.reg 0, t.reg 15, t.pc)) =
      some (0x00, 0x05, 1) := by decide

/-- V50: the rotate is stored first, then carry is forced. -/
theorem test_rolr_flags :
    after (step (loaded 0 [0x8F] [(15, 0x01)])) (fun t => t.reg 15) = some 0x82 := by decide

/-- V52, for whatever value is drawn: it is stored, and no flag changes. -/
theorem test_rnv :
    after (step (loaded 0 [0x92] [(2, 0x11), (15, 0x07)])) (fun t => (t.reg 2, t.reg 15, t.pc)) =
      some (Config.drawByte 0, 0x07, 1) := rfl

/-- V53: the drawn value replaces the flags byte. -/
theorem test_rnv_flags : (storeDraw 0xFF 15 (loaded 0 [0x9F] [])).reg 15 = 0xFF := by decide

/-- V64: a reserved bit of the flags, taken. -/
theorem test_bib_taken :
    after (step (loaded 10 [0xAF, 0x0E] [(15, 0x80)])) (fun t => (t.pc, t.reg 15)) =
      some (14, 0x80) := by decide

/-- V67: register 0 is tested, not the flags. -/
theorem test_bib_not_taken :
    after (step (loaded 14 [0xA7, 0x12] [(0, 0x7F), (15, 0xFF)])) (fun t => t.pc) = some 16 := by
  decide

/-- V71: a non-canonical first byte. -/
theorem test_jmp : after (step (loaded 40 [0xB5, 0x00] [])) (fun t => t.pc) = some 0 := by decide

/-- V74: under `JMP_ADJUST = 1` the target 0 faults. -/
theorem test_jmp_underflow :
    faultOf (stepUnder { reference with jmpAdjust := 1 } (loaded 12 [0xB0, 0x00] [])) =
      some .jumpTargetUnderflow := by decide

/-- V81: the low nibble of the second byte is ignored. -/
theorem test_mov :
    after (step (loaded 0 [0xC0, 0x57] [(5, 0xF0), (7, 0x11)])) (fun t => (t.reg 0, t.reg 5, t.pc)) =
      some (0xF0, 0xF0, 2) := by decide

/-- V83: the flags byte as data. -/
theorem test_mov_from_flags :
    after (step (loaded 0 [0xC2, 0xF0] [(15, 0x05)])) (fun t => (t.reg 2, t.reg 15)) =
      some (0x05, 0x05) := by decide

/-- V87. -/
theorem test_ldi :
    after (step (loaded 0 [0xDE, 0xFF] [])) (fun t => (t.reg 14, t.reg 15, t.pc)) =
      some (0xFF, 0x00, 2) := by decide

/-- V86: clearing the flags. -/
theorem test_ldi_flags :
    after (step (loaded 0 [0xDF, 0x00] [(15, 0x07)])) (fun t => t.reg 15) = some 0x00 := by decide

/-- V91: an output cell read back. -/
theorem test_in_output_cell :
    after (step ((loaded 0 [0xE2, 0x90] []).writePort 9 0x42)) (fun t => (t.reg 2, t.readPort 9)) =
      some (0x42, 0x42) := by decide

/-- V92: the flags byte loaded from a port. -/
theorem test_in_flags :
    after (step ((loaded 0 [0xEF, 0x70] []).writePort 7 0x03)) (fun t => t.reg 15) = some 0x03 := by
  decide

/-- V95: an input cell written by the program. -/
theorem test_out_input_cell :
    after (step ((loaded 0 [0xF0, 0x30] [(0, 0x99)]).writePort 3 0x01)) (fun t => t.readPort 3) =
      some 0x99 := by decide

/-- V97: the low nibble of the second byte is ignored. -/
theorem test_out :
    after (step (loaded 0 [0xF2, 0x89] [(2, 0x08)])) (fun t => (t.readPort 8, t.readPort 9, t.pc)) =
      some (0x08, 0x00, 2) := by decide

/-! ## Faults and the environment (spec/95_test_vectors.md, part 4) -/

/-- H5: a step before the freeze is refused. -/
theorem test_step_before_freeze : refusalOf (step State.reset) = some .stepBeforeFreeze := by decide

/-- H6: the byte after the program was never loaded. -/
theorem test_unloaded_fetch : faultOf (step (loaded 8 [] [])) = some (.unloadedFetch 8) := by decide

/-- H7: the byte at 255 is read and the counter cannot advance. -/
theorem test_pc_overflow : faultOf (step (loaded 255 [0x00] [])) = some .pcOverflow := by decide

/-- H8: under `PC_OVERFLOW = wrap` the same `nop` continues at 0. -/
theorem test_pc_wrap :
    after (stepUnder { reference with pcOverflow := .wrap } (loaded 255 [0x00] [])) (fun t => t.pc) =
      some 0 := by decide

/-- H9: the second byte at 255. -/
theorem test_pc_overflow_second_byte :
    faultOf (step (loaded 254 [0xD0, 0x07] [])) = some .pcOverflow := by decide

/-- R186: an unloaded second byte at 255 is `UnloadedFetch` before `PcOverflow`. -/
theorem test_unloaded_before_overflow :
    faultOf (step (loaded 254 [0xD0] [])) = some (.unloadedFetch 255) := by decide

/-- V69: a halted state is a fixed point. -/
theorem test_halted :
    after (step (loaded 16 [0xB0, 0x10] [])) (fun t => decide (t = loaded 16 [0xB0, 0x10] [])) =
      some true := by decide

/-- H1: a write after the freeze. -/
theorem test_write_after_freeze :
    session [.memWrite 0 0xD0, .memWrite 1 0x05, .freeze, .memWrite 0 0x00] State.reset
      (fun t => memRead reference 0 t) =
      ([.done, .done, .done, .usageError .romWriteAfterFreeze], some (some 0xD0)) := by decide

/-- H3, H4. -/
theorem test_port_direction :
    session [.inSet 7 0xAA, .outGet 8, .inSet 8 0x12, .outGet 15, .outGet 7] State.reset
      (fun t => (t.readPort 7, t.readPort 8)) =
      ([.done, .value 0, .usageError .portDirection, .value 0, .usageError .portDirection],
        some (0xAA, 0)) := by decide

/-- R202: load, freeze, step; H6's fault ends the run and leaves no state. -/
theorem test_boot :
    session [.load [0xD0, 0x05], .freeze, .step, .step, .step] State.reset (fun t => t.pc) =
      ([.done, .done, .done, .fault (.unloadedFetch 2)], none) := by decide

/-- R40: the state after reset. -/
theorem test_reset :
    State.reset.pc = 0 ∧ State.reset.romPhase = .writable ∧ State.reset.reg 15 = 0 ∧
      State.reset.rom = [] := by decide

/-- The host's placing of a word: the next step runs it, at reset and at the top of the store. -/
theorem test_withFetchWord :
    after (step (State.reset.withFetchWord 16 0x05D0)) (fun t => (t.reg 0, t.pc)) = some (5, 2) ∧
      after (step ((loaded 254 [] []).withFetchWord 8 0x71)) (fun t => (t.reg 1, t.pc)) =
        some (1, 255) ∧
      after (step ((loaded 255 [] []).withFetchWord 16 0x07D0)) (fun t => (t.reg 0, t.pc)) =
        some (7, 2) := by decide

/-! ## The assembler (spec/95_test_vectors.md, part 3) -/

/-- S7, P1. -/
theorem test_assemble_P1 :
    asData (assembled reference "ldi a 5\nldi b 3\nadd c a b\nout o0 c") =
      (none, some [0xD0, 0x05, 0xD1, 0x03, 0x12, 0x01, 0xF2, 0x80]) := by decide

/-- A4: a forward reference. -/
theorem test_assemble_forward :
    asData (assembled reference "jmp end\nnop\nlabel end\nnop") =
      (none, some [0xB0, 0x03, 0x00, 0x00]) := by decide

/-- A4 with `LABEL_BIAS = 1`. -/
theorem test_assemble_forward_biased :
    asData (assembled { reference with labelBias := 1 } "jmp end\nnop\nlabel end\nnop") =
      (none, some [0xB0, 0x02, 0x00, 0x00]) := by decide

/-- A5: a backward reference, and the biased label that has no value. -/
theorem test_assemble_backward :
    asData (assembled reference "label top\ninc a\njmp top") = (none, some [0x70, 0xB0, 0x00]) ∧
      asData (assembled { reference with labelBias := 1 } "label top\ninc a\njmp top") =
        (some .labelRange, none) := by decide

/-- A6 to A8. -/
theorem test_assemble_unknown_names :
    asData (assembled reference "bib cf x") = (some .unresolvedLabel, none) ∧
      asData (assembled reference "foo a") = (some .unknownMnemonic, none) ∧
      asData (assembled reference "LDI a 5") = (some .unknownMnemonic, none) := by decide

/-- A9 to A11. -/
theorem test_assemble_unknown_operands :
    asData (assembled reference "ldi q 1") = (some .unknownRegister, none) ∧
      asData (assembled reference "in a x9") = (some .unknownPort, none) ∧
      asData (assembled reference "bib zz somewhere") = (some .unknownCondition, none) := by decide

/-- A12, A13, A23. -/
theorem test_assemble_literals :
    asData (assembled reference "ldi a 256") = (some .literalRange, none) ∧
      asData (assembled reference "ldi a 0x1F\nldi b 0b101") =
        (none, some [0xD0, 0x1F, 0xD1, 0x05]) ∧
      asData (assembled reference "ldi a 5+1") = (some .literalSyntax, none) ∧
      asData (assembled reference "ldi a -1") = (some .literalSyntax, none) := by decide

/-- A14, A17, A24. -/
theorem test_assemble_counts :
    asData (assembled reference "add c a") = (some .operandCount, none) ∧
      asData (assembled reference "label x\nnop\nlabel x") = (some .duplicateLabel, none) ∧
      asData (assembled reference "jmp") = (some .operandCount, none) ∧
      asData (assembled reference "nop a") = (some .operandCount, none) := by decide

/-- A15, A21. -/
theorem test_assemble_blanks :
    asData (assembled reference "  add\tc   a b  ") = (none, some [0x12, 0x01]) ∧
      asData (assembled reference "") = (none, some []) := by decide

/-- A18, A19. -/
theorem test_assemble_forms :
    asData (assembled reference "nop\ninc b\nrolr a\nrnv c") = (none, some [0x00, 0x71, 0x80, 0x92]) ∧
      asData (assembled reference "sub d c a\nmov a f\nin a i0") =
        (none, some [0x23, 0x20, 0xC0, 0x50, 0xE0, 0x00]) := by decide

/-- A20. -/
theorem test_assemble_conditions :
    asData (assembled reference "label l\nbib a7 l\nbib f7 l\nbib sf l") =
      (none, some [0xA7, 0x00, 0xAF, 0x00, 0xAA, 0x00]) := by decide

set_option maxRecDepth 20000 in
/-- A22: one line too many; the 128 lines before it fit exactly. -/
theorem test_assemble_too_long :
    let line : List Token := ["ldi".toList, "a".toList, "0".toList]
    assembleLines reference (List.replicate 129 line) = .error .programTooLong ∧
      ((assembleLines reference (List.replicate 128 line)).toOption.map List.length) = some 256 :=
  ⟨rfl, rfl⟩

/-! ## Witnesses: for every statement with hypotheses, a state and operands that meet them -/

open Sys2Proof.Claims

/-- The configuration whose every ALU write has the result first: the other order of R118. -/
def resultFirst : Config := { reference with aluOrder := fun _ => .resultFirst }

/-- The configuration with `JMP_ADJUST = 1` and `LABEL_BIAS = 1`. -/
def biased : Config := { reference with jmpAdjust := 1, labelBias := 1 }

theorem witness_NopResult : reference.wellFormed = true ∧ hi 0x0F = 0 := by decide

theorem witness_AddResult :
    reference.wellFormed = true ∧ hi 0x1F = (reference.opc .add).toNat ∧ lo 0x1F = (15 : Reg).val ∧
      hi 0xF0 = (15 : Reg).val ∧ lo 0xF0 = (0 : Reg).val := by decide

theorem witness_SubResult :
    reference.wellFormed = true ∧ hi 0x22 = (reference.opc .sub).toNat ∧ lo 0x22 = (2 : Reg).val ∧
      hi 0x01 = (0 : Reg).val ∧ lo 0x01 = (1 : Reg).val := by decide

theorem witness_AndResult :
    reference.wellFormed = true ∧ hi 0x35 = (reference.opc .and).toNat ∧ lo 0x35 = (5 : Reg).val ∧
      hi 0x41 = (4 : Reg).val ∧ lo 0x41 = (1 : Reg).val := by decide

theorem witness_OrResult :
    reference.wellFormed = true ∧ hi 0x42 = (reference.opc .or).toNat ∧ lo 0x42 = (2 : Reg).val ∧
      hi 0x01 = (0 : Reg).val ∧ lo 0x01 = (1 : Reg).val := by decide

theorem witness_NorResult :
    reference.wellFormed = true ∧ hi 0x53 = (reference.opc .nor).toNat ∧ lo 0x53 = (3 : Reg).val ∧
      hi 0x01 = (0 : Reg).val ∧ lo 0x01 = (1 : Reg).val := by decide

theorem witness_XorResult :
    reference.wellFormed = true ∧ hi 0x64 = (reference.opc .xor).toNat ∧ lo 0x64 = (4 : Reg).val ∧
      hi 0x02 = (0 : Reg).val ∧ lo 0x02 = (2 : Reg).val := by decide

/-- The clauses of `AluPost`: a destination other than 15, and 15 under each order. -/
theorem witness_AluPost_clauses :
    (14 : Reg) ≠ 15 ∧ reference.aluOrder .add = .flagsFirst ∧ reference.aluOrder .rolr = .resultFirst ∧
      resultFirst.wellFormed = true ∧ resultFirst.aluOrder .add = .resultFirst := by decide

theorem witness_IncResult :
    reference.wellFormed = true ∧ hi 0x7F = (reference.opc .inc).toNat ∧ lo 0x7F = (15 : Reg).val := by
  decide

theorem witness_RolrResult :
    reference.wellFormed = true ∧ hi 0x80 = (reference.opc .rolr).toNat ∧ lo 0x80 = (0 : Reg).val := by
  decide

theorem witness_RnvResult :
    reference.wellFormed = true ∧ hi 0x92 = (reference.opc .rnv).toNat ∧ lo 0x92 = (2 : Reg).val := by
  decide

/-- Both sides of the selector's top bit, at its last and first code. -/
theorem witness_BibResult :
    reference.wellFormed = true ∧ hi 0xA7 = (reference.opc .bib).toNat ∧
      (CondSource.reg0 = .flags ↔ 8 ≤ lo 0xA7) ∧ (7 : BitPos).val = lo 0xA7 % 8 ∧
      hi 0xA8 = (reference.opc .bib).toNat ∧ (CondSource.flags = .flags ↔ 8 ≤ lo 0xA8) ∧
      (0 : BitPos).val = lo 0xA8 % 8 := by decide

/-- Both settings of the adjustment, each at its smallest target. -/
theorem witness_JmpResult :
    reference.jmpAdjust.val ≤ (0 : Byte).toNat ∧ biased.wellFormed = true ∧ biased.jmpAdjust = 1 ∧
      biased.jmpAdjust.val ≤ (1 : Byte).toNat ∧ hi 0xB5 = (reference.opc .jmp).toNat := by decide

theorem witness_MovResult :
    reference.wellFormed = true ∧ hi 0xC0 = (reference.opc .mov).toNat ∧ lo 0xC0 = (0 : Reg).val ∧
      hi 0x57 = (5 : Reg).val := by decide

theorem witness_LdiResult :
    reference.wellFormed = true ∧ hi 0xDE = (reference.opc .ldi).toNat ∧ lo 0xDE = (14 : Reg).val := by
  decide

theorem witness_InResult :
    reference.wellFormed = true ∧ hi 0xE2 = (reference.opc .inPort).toNat ∧ lo 0xE2 = (2 : Reg).val ∧
      hi 0x90 = (9 : Port).val := by decide

theorem witness_OutResult :
    reference.wellFormed = true ∧ hi 0xF2 = (reference.opc .outPort).toNat ∧ lo 0xF2 = (2 : Reg).val ∧
      hi 0x89 = (8 : Port).val := by decide

theorem witness_EightRotatesRestore : (14 : Reg) ≠ 15 := by decide

/-- The last place a two-byte and a one-byte instruction can stand. -/
theorem witness_StepRunsDecoded :
    (loaded 253 [0xD0, 0x07] []).romPhase = .frozen ∧
      decode reference.opc [0xD0, 0x07] = .ok (.ldi 0 7, []) ∧
      (loaded 253 [0xD0, 0x07] []).loadedAt reference 253 [0xD0, 0x07] ∧
      decode reference.opc [0x71] = .ok (.inc 1, []) ∧
      (loaded 254 [0x71] []).loadedAt reference 254 [0x71] := by
  refine ⟨rfl, rfl, ?_, rfl, ?_⟩ <;> unfold State.loadedAt <;> decide

/-- Under `PC_OVERFLOW = wrap`: a `nop` at 255 (H8), and an instruction at 255 and 0. -/
theorem witness_StepRunsDecoded_wrap :
    let cfg : Config := { reference with pcOverflow := .wrap }
    let across : State := { loaded 255 [0xD0] [] with rom := [(0, 0x07), (255, 0xD0)] }
    cfg.pcOverflow = .wrap ∧ decode cfg.opc [0x00] = .ok (.nop, []) ∧
      (loaded 255 [0x00] []).loadedAcross cfg 255 [0x00] ∧
      across.Inv cfg ∧ across.romPhase = .frozen ∧ across.loadedAcross cfg 255 [0xD0, 0x07] := by
  refine ⟨rfl, rfl, ?_, rfl, rfl, ?_⟩ <;> unfold State.loadedAcross <;> decide

/-- Each clause of the fetch: writable, never written, written, filled, 254, and 255 both ways. -/
theorem witness_FetchOutcomes :
    State.reset.romPhase = .writable ∧ (loaded 8 [] []).romPhase = .frozen ∧
      Memory.lookup (loaded 8 [] []).rom 8 = none ∧ reference.romFill = none ∧
      Memory.lookup (loaded 254 [0x71] []).rom 254 = some 0x71 ∧
      ({ reference with romFill := some 0 } : Config).romFill = some 0 ∧
      (loaded 254 [0x71] []).pc.toNat ≠ 255 ∧ (255 : Byte).toNat = (loaded 254 [0x71] []).pc.toNat + 1 ∧
      (loaded 255 [0x00] []).pc.toNat = 255 ∧ Memory.lookup (loaded 255 [0x00] []).rom 255 = some 0 ∧
      reference.pcOverflow = .fault ∧ ({ reference with pcOverflow := .wrap } : Config).pcOverflow = .wrap := by
  decide

/-- The last place a halted state can stand (C14). -/
theorem witness_HaltedIsFixedPoint : (loaded 253 [0xB0, 253] []).halted := by
  refine ⟨rfl, 0xB0, rfl, ?_⟩
  unfold State.loadedAt
  decide

/-- A taken and a not taken branch, a jump with the adjustment, and another instruction complete. -/
theorem witness_PcWrites :
    (∃ t, execUnder reference (.bib ⟨.flags, 0⟩ 14) (loaded 12 [] [(15, 1)]) = .next t ∧
        selected ⟨.flags, 0⟩ (loaded 12 [] [(15, 1)]) = true) ∧
      (∃ t, execUnder reference (.bib ⟨.flags, 0⟩ 14) (loaded 12 [] []) = .next t ∧
        selected ⟨.flags, 0⟩ (loaded 12 [] []) = false) ∧
      (∃ t, execUnder biased (.jmp 1) (loaded 12 [] []) = .next t) ∧
      ∃ t, execUnder reference .nop (loaded 12 [] []) = .next t :=
  ⟨⟨_, rfl, by decide⟩, ⟨_, rfl, by decide⟩, ⟨_, rfl⟩, ⟨_, rfl⟩⟩

theorem witness_RegisterWrites :
    (∃ t, execUnder reference (.mov 3 4) (loaded 2 [] []) = .next t) ∧
      some (15 : Reg) ≠ destination (.mov 3 4) ∧ updatesFlags (.mov 3 4) = false ∧
      some (14 : Reg) ≠ destination (.add 2 0 1) ∧ (14 : Reg) ≠ 15 :=
  ⟨⟨_, rfl⟩, by decide⟩

theorem witness_PortWrites :
    after (execUnder reference (.outPort 8 2) (loaded 2 [] [(2, 8)]))
      (fun t => decide (t.readPort 8 ≠ (loaded 2 [] [(2, 8)]).readPort 8)) = some true := by decide

/-- Each of the three flags set before an instruction that does not name register 15. -/
theorem witness_FlagsAreSticky :
    reference.wellFormed = true ∧
      (∃ t, execUnder reference (.sub 2 0 1) (loaded 2 [] [(0, 9), (15, 7)]) = .next t) ∧
      destination (.sub 2 0 1) ≠ some 15 ∧ (∀ d, Instr.sub 2 0 1 ≠ .rolr d) ∧
      bit ((loaded 2 [] [(0, 9), (15, 7)]).reg 15) reference.flagZ = true ∧
      bit ((loaded 2 [] [(0, 9), (15, 7)]).reg 15) reference.flagC = true ∧
      bit ((loaded 2 [] [(0, 9), (15, 7)]).reg 15) reference.flagS = true :=
  ⟨by decide, ⟨_, rfl⟩, by decide, fun _ => by simp, by decide, by decide, by decide⟩

theorem witness_ReservedFlagBits :
    (∃ t, execUnder reference (.inc 1) (loaded 1 [] [(1, 0xFF), (15, 0x80)]) = .next t) ∧
      destination (.inc 1) ≠ some 15 ∧ (7 : BitPos) ≠ reference.flagZ ∧ (7 : BitPos) ≠ reference.flagC ∧
      (7 : BitPos) ≠ reference.flagS :=
  ⟨⟨_, rfl⟩, by decide⟩

theorem witness_FlagsAreNoInput :
    (15 : Reg) ∉ sources (.add 2 0 1) ∧
      ∃ t, execUnder reference (.add 2 0 1) (loaded 2 [] [(15, 2)]) = .next t :=
  ⟨by decide, ⟨_, rfl⟩⟩

/-- A step that is not `rnv` and completes, and one that stops. -/
theorem witness_OnlyRnvDraws :
    (∀ d u, fetchInstr reference (loaded 0 [0x00] []) ≠ .next (.rnv d, u)) ∧
      (∃ t, stepUnder reference (loaded 0 [0x00] []) = .next t) ∧
      ∀ d u, fetchInstr reference State.reset ≠ .next (.rnv d, u) := by
  have e : fetchInstr reference (loaded 0 [0x00] []) = .next (.nop, (loaded 0 [0x00] []).setPc 1) := rfl
  have e' : fetchInstr reference State.reset = .refused .stepBeforeFreeze := rfl
  exact ⟨fun d u => by rw [e]; simp, ⟨_, rfl⟩, fun d u => by rw [e']; simp⟩

theorem witness_FrozenStoreNeverChanges :
    (∃ t, stepUnder reference (loaded 0 [0x00] []) = .next t) ∧ (loaded 0 [0x00] []).romPhase = .frozen ∧
      session [.inSet 0 9, .memWrite 0 1, .freeze, .step] (loaded 0 [0x00] []) (fun t => t.pc) =
        ([.done, .usageError .romWriteAfterFreeze, .done, .done], some 1) :=
  ⟨⟨_, rfl⟩, rfl, by decide⟩

theorem witness_StoreFormIsKept :
    (loaded 0 [0x00] []).Inv reference ∧ (∃ t, step (loaded 0 [0x00] []) = .next t) ∧
      State.reset.Inv reference ∧ ∃ t, (serve reference (.memWrite 255 7) State.reset).2 = some t :=
  ⟨rfl, ⟨_, rfl⟩, rfl, ⟨_, rfl⟩⟩

theorem witness_ResetState : reference.regReset = .byte 0 ∧ reference.portReset = .byte 0 := by decide

theorem witness_DecodeEncode : reference.wellFormed = true := by decide

/-- A one-byte and a two-byte instruction with ignored bits set. -/
theorem witness_EncodeDecodeClearsIgnored :
    reference.wellFormed = true ∧ decode reference.opc [0x0F, 0xAA] = .ok (.nop, [0xAA]) ∧
      Instr.nop.mnemonic ∈ oneByte ∧ decode reference.opc [0xC0, 0x57] = .ok (.mov 0 5, []) ∧
      (Instr.mov 0 5).mnemonic ∉ oneByte := ⟨by decide, rfl, by decide, rfl, by decide⟩

theorem witness_DecoderIsTotal : reference.wellFormed = true ∧ resultFirst.wellFormed = true := by decide

theorem witness_LengthByOpcode :
    reference.wellFormed = true ∧ decode reference.opc [0x71, 0x00] = .ok (.inc 1, [0x00]) ∧
      decode reference.opc [0xB0, 0x10] = .ok (.jmp 16, []) := ⟨by decide, rfl, rfl⟩

theorem witness_InputSetter : (7 ≤ 7) ∧ 7 < 8 ∧ (7 : Port).val = 7 ∧ 7 < 16 := by decide

/-- A byte, a reference that a label resolves, and one that none resolves. -/
theorem witness_LabelsAreResolved :
    asData (resolveItems [("l".toList, 5)] [.byte 0xB0, .labelRef "l".toList]) =
        (none, some [0xB0, 5]) ∧
      asData (resolveItems [] [.labelRef "l".toList]) = (some .unresolvedLabel, none) := by decide

/-- Each stop of a step: a writable store, an unloaded first byte, a first byte at 255, an unloaded
second byte and a second byte at 255. -/
theorem witness_StepStopsExactly :
    refusalOf (step State.reset) = some .stepBeforeFreeze ∧
      faultOf (step (loaded 8 [] [])) = some (.unloadedFetch 8) ∧
      faultOf (step (loaded 255 [0x10] [])) = some .pcOverflow ∧
      faultOf (step (loaded 253 [0x10] [])) = some (.unloadedFetch 254) ∧
      faultOf (step (loaded 254 [0x10, 0x00] [])) = some .pcOverflow := by decide

theorem witness_NoStateLeftIffStepFaults :
    serve reference .step (loaded 8 [] []) = (.fault (.unloadedFetch 8), none) := by decide

theorem witness_OutputGetter :
    (8 : Port).val = 8 ∧ (15 : Port).val = 15 ∧ (7 < 8 ∨ 15 < 7) ∧ (16 < 8 ∨ 15 < 16) := by decide

theorem witness_FreezeRequest :
    State.reset.romPhase = .writable ∧ (loaded 0 [0x00] []).romPhase = .frozen := by decide

theorem witness_LoaderWrite :
    State.reset.Inv reference ∧ State.reset.romPhase = .writable ∧ (loaded 0 [0x00] []).Inv reference ∧
      (loaded 0 [0x00] []).romPhase = .frozen := ⟨rfl, rfl, rfl, rfl⟩

theorem witness_ProgramLoad :
    State.reset.Inv reference ∧ State.reset.romPhase = .writable ∧
      (List.replicate 256 (0 : Byte)).length ≤ 256 ∧ 256 < (List.replicate 257 (0 : Byte)).length :=
  ⟨rfl, rfl, by rw [List.length_replicate], by rw [List.length_replicate]; decide⟩

theorem witness_FailedRequestsChangeNothing :
    serve reference (.outGet 7) State.reset = (.usageError .portDirection, some State.reset) ∧
      serve reference .step State.reset = (.refused .stepBeforeFreeze, some State.reset) := ⟨rfl, rfl⟩

theorem witness_PortsCarryValues :
    inSet 7 0xB5 State.reset = .ok (State.reset.writePort 7 0xB5) ∧ 8 ≤ (8 : Port).val ∧
      ∃ t, exec (.outPort 8 2) (loaded 2 [] [(2, 8)]) = .next t := ⟨rfl, by decide, ⟨_, rfl⟩⟩

/-- A line that is accepted, with a label in it, and the instruction its tokens name. -/
theorem witness_LineAgreesWithDecoder :
    reference.wellFormed = true ∧
      instrItems reference "bib".toList ["zf".toList, "done".toList] =
        .ok [.byte 0xA8, .labelRef "done".toList] ∧
      resolveItems [("done".toList, 14)] [.byte 0xA8, .labelRef "done".toList] = .ok [0xA8, 0x0E] ∧
      reference.vocab.mnemonics.lookup "bib".toList = some (Instr.bib ⟨.flags, 0⟩ 14).mnemonic ∧
      LineMeans reference.vocab [("done".toList, 14)] ["zf".toList, "done".toList]
        (.bib ⟨.flags, 0⟩ 14) :=
  ⟨by decide, rfl, rfl, by decide, ⟨_, _, rfl, by decide, by decide⟩⟩

theorem witness_AssembledIsCanonicalCode : assemble reference "ldi a 5" = .ok [0xD0, 0x05] := rfl

/-- The smallest and the largest position a label can be bound at, and both transfers to it. -/
theorem witness_LabelBiasAndJumpAdjust :
    List.lookup "x".toList (AsmState.mk [.byte 0, .byte 0] []).labels = none ∧
      biased.labelBias.val ≤ 2 ∧ 256 ≤ 255 + biased.labelBias.val ∧ reference.labelBias.val ≤ 0 ∧
      bindLabel biased "x".toList ⟨[.byte 0, .byte 0], []⟩ =
        .ok ⟨[.byte 0, .byte 0], [("x".toList, 1)]⟩ ∧
      selected ⟨.reg0, 0⟩ (loaded 2 [] [(0, 1)]) = true ∧
      (∃ t, execUnder biased (.bib ⟨.reg0, 0⟩ 1) (loaded 2 [] [(0, 1)]) = .next t) ∧
      ∃ t, execUnder biased (.jmp 1) (loaded 2 [] [(0, 1)]) = .next t :=
  ⟨rfl, by decide, by decide, by decide, rfl, by decide, ⟨_, rfl⟩, ⟨_, rfl⟩⟩

end Sys2Proof.Tests
end

section
/-!
The model's counter of draws (log 10) as noninterference: every operation but `rnv` commutes with setting
the counter. That a step leaves the counter as it was follows, by setting it to the value it has.
-/

namespace Sys2Proof.Machine

/-- The state with the model's counter of draws set. -/
def State.atDraws (n : Nat) (s : State) : State := { s with draws := n }

/-- An outcome with its next state, or its value and next state, replaced; a stop stays the same stop. -/
def mapNext {σ τ φ ρ : Type} (f : σ → τ) : Host.Outcome σ φ ρ → Host.Outcome τ φ ρ
  | .next s => .next (f s)
  | .fault r => .fault r
  | .refused r => .refused r

@[simp] theorem mapNext_next {σ τ φ ρ : Type} (f : σ → τ) (s : σ) :
    mapNext f (.next s : Host.Outcome σ φ ρ) = .next (f s) := rfl

/-! ## The counter and the state's accessors -/

@[simp] theorem State.atDraws_draws (n : Nat) (s : State) : (s.atDraws n).draws = n := rfl

@[simp] theorem State.atDraws_pc (n : Nat) (s : State) : (s.atDraws n).pc = s.pc := rfl

@[simp] theorem State.atDraws_rom (n : Nat) (s : State) : (s.atDraws n).rom = s.rom := rfl

@[simp] theorem State.atDraws_romPhase (n : Nat) (s : State) :
    (s.atDraws n).romPhase = s.romPhase := rfl

@[simp] theorem State.setReg_atDraws (n : Nat) (s : State) (r : Reg) (v : Byte) :
    (s.atDraws n).setReg r v = (s.setReg r v).atDraws n := rfl

@[simp] theorem State.atDraws_self (s : State) : s.atDraws s.draws = s := rfl

/-! ## The counter and the fetch -/

theorem advance_atDraws (cfg : Config) (n : Nat) (s : State) :
    advance cfg (s.atDraws n) = mapNext (State.atDraws n) (advance cfg s) := by
  simp only [advance, State.atDraws_pc]
  by_cases h : s.pc = 255
  · simp only [h, if_true]
    cases cfg.pcOverflow <;> rfl
  · simp only [h, if_false]
    rfl

theorem fetch_atDraws (cfg : Config) (n : Nat) (s : State) :
    fetch cfg (s.atDraws n) = mapNext (Prod.map id (State.atDraws n)) (fetch cfg s) := by
  simp only [fetch, State.atDraws_romPhase, State.atDraws_rom, State.atDraws_pc, advance_atDraws]
  cases s.romPhase with
  | writable => rfl
  | frozen =>
    cases Memory.read cfg.romFill s.rom s.pc.toNat with
    | none => rfl
    | some b => cases advance cfg s <;> rfl

/-- The instruction fetched, and where the program counter is left, do not depend on the counter. -/
theorem fetchInstr_atDraws (cfg : Config) (n : Nat) (s : State) :
    fetchInstr cfg (s.atDraws n) = mapNext (Prod.map id (State.atDraws n)) (fetchInstr cfg s) := by
  simp only [fetchInstr, fetch_atDraws]
  cases fetch cfg s with
  | fault f => rfl
  | refused r => rfl
  | next p =>
    obtain ⟨b1, s1⟩ := p
    simp only [mapNext_next, Prod.map_apply, id_eq, fetch_atDraws]
    cases mnemonicOf cfg.opc (hiNibble b1) with
    | none => rfl
    | some m =>
      dsimp only
      split
      · rfl
      · cases fetch cfg s1 <;> rfl

/-! ## The counter and the meanings -/

/-- A flag update is determined by its frame and its bits, so it does not depend on the counter. -/
theorem FlagUpdate.atDraws {update : State → State} {upd : BitPos → Bool → Bool}
    (h : FlagUpdate update upd) (n : Nat) (s : State) :
    update (s.atDraws n) = (update s).atDraws n := by
  obtain ⟨hr, hpc, hrom, hph, hport, -⟩ := h.frame s
  obtain ⟨hr', hpc', hrom', hph', hport', hd'⟩ := h.frame (s.atDraws n)
  refine State.ext_cells (fun r => ?_) (hpc'.trans hpc.symm) (hrom'.trans hrom.symm)
    (hph'.trans hph.symm) (fun p => congrArg (·[p]) (hport'.trans hport.symm)) hd'
  by_cases h15 : r = 15
  · subst h15
    refine BitVec.eq_of_getLsbD_eq fun k hk => ?_
    exact (h.bits (s.atDraws n) ⟨k, hk⟩).trans (h.bits s ⟨k, hk⟩).symm
  · exact (hr' r h15).trans (hr r h15).symm

theorem aluWrite_atDraws {update : State → State} {upd : BitPos → Bool → Bool}
    (h : FlagUpdate update upd) (order : AluOrder) (d : Reg) (v : Byte) (n : Nat) (s : State) :
    aluWrite order update d v (s.atDraws n) = (aluWrite order update d v s).atDraws n := by
  cases order <;> simp [aluWrite, h.atDraws]

/-- The meaning of every instruction but `rnv` commutes with setting the counter. -/
theorem execUnder_atDraws (cfg : Config) {i : Instr} (hi : ∀ d, i ≠ .rnv d) (n : Nat) (s : State) :
    execUnder cfg i (s.atDraws n) = mapNext (State.atDraws n) (execUnder cfg i s) := by
  cases i with
  | rnv d => exact absurd rfl (hi d)
  | add => exact congrArg _ (aluWrite_atDraws (flagUpdate_sum cfg _) ..)
  | sub => exact congrArg _ (aluWrite_atDraws (flagUpdate_difference cfg _) ..)
  | and => exact congrArg _ (aluWrite_atDraws (flagUpdate_logic cfg _) ..)
  | or => exact congrArg _ (aluWrite_atDraws (flagUpdate_logic cfg _) ..)
  | nor => exact congrArg _ (aluWrite_atDraws (flagUpdate_nor cfg _) ..)
  | xor => exact congrArg _ (aluWrite_atDraws (flagUpdate_logic cfg _) ..)
  | inc => exact congrArg _ (aluWrite_atDraws (flagUpdate_sum cfg _) ..)
  | rolr => exact congrArg _ (aluWrite_atDraws (flagUpdate_rotate cfg _) ..)
  | bib c t => exact congrArg _ (apply_ite (State.atDraws n) (s.condBit c) (s.setPc t) s).symm
  | jmp t =>
    simp only [execUnder, jmpUnder]
    split <;> rfl
  | nop | mov | ldi | inPort | outPort => rfl

/-- A step that does not run `rnv` commutes with setting the counter. -/
theorem stepUnder_atDraws {cfg : Config} {s : State}
    (h : ∀ d u, fetchInstr cfg s ≠ .next (.rnv d, u)) (n : Nat) :
    stepUnder cfg (s.atDraws n) = mapNext (State.atDraws n) (stepUnder cfg s) := by
  simp only [stepUnder, runFetched, fetchInstr_atDraws]
  cases e : fetchInstr cfg s with
  | fault f => rfl
  | refused r => rfl
  | next p =>
    obtain ⟨i, u⟩ := p
    have hi : ∀ d, i ≠ .rnv d := by rintro d rfl; exact h d u e
    exact execUnder_atDraws cfg hi n u

/-- A step that does not run `rnv` leaves the counter: setting it beforehand to its own value sets it
afterwards to that value. -/
theorem stepUnder_draws {cfg : Config} {s t : State}
    (h : ∀ d u, fetchInstr cfg s ≠ .next (.rnv d, u)) (ht : stepUnder cfg s = .next t) :
    t.draws = s.draws := by
  have hself := stepUnder_atDraws h s.draws
  rw [State.atDraws_self, ht, mapNext_next, Host.Outcome.next.injEq] at hself
  rw [hself, State.atDraws_draws]

/-- Settles O30: setting the counter commutes with the fetch and with every meaning but that of `rnv`. -/
theorem onlyRnvDraws : Obligations.OnlyRnvDraws := by
  intro cfg s n h
  have hn : stepUnder cfg { s with draws := n } = mapNext (State.atDraws n) (stepUnder cfg s) :=
    stepUnder_atDraws h n
  cases e : stepUnder cfg s with
  | next t => exact ⟨stepUnder_draws h e, by rw [hn, e]; rfl⟩
  | fault f => rw [hn, e]; rfl
  | refused r => rw [hn, e]; rfl

end Sys2Proof.Machine
end

section
/-!
The program store's canonical form (log 25) through every request. Only the loader's writes touch the
store, and `Memory.wf_write` says that each of them keeps the form.
-/

namespace Sys2Proof.Machine

/-- The invariant speaks of the store alone. -/
theorem State.Inv.of_rom_eq {cfg : Config} {s t : State} (h : s.Inv cfg) (e : t.rom = s.rom) :
    t.Inv cfg := by
  unfold State.Inv at h ⊢
  rwa [e]

/-- The state after an operation that may be a usage error: its result, or the state as it was (R182). -/
theorem replyOf_state {s t : State} {r : Except UsageError State} :
    (replyOf s r).2 = some t ↔ r = .ok t ∨ (∃ e, r = .error e) ∧ t = s := by
  cases r <;> simp [replyOf, eq_comm]

theorem memWrite_keeps_inv {cfg : Config} {addr v : Byte} {s t : State} (h : s.Inv cfg)
    (e : memWrite cfg addr v s = .ok t) : t.Inv cfg := by
  obtain ⟨-, rfl⟩ := memWrite_ok.mp e
  exact Memory.wf_write h v addr.isLt

theorem writeBytes_keeps_inv {cfg : Config} {bytes : List Byte} {addr : Nat} {s t : State}
    (h : s.Inv cfg) (e : writeBytes cfg addr bytes s = .ok t) : t.Inv cfg := by
  induction bytes generalizing addr s with
  | nil => cases e; exact h
  | cons b rest ih =>
    simp only [writeBytes] at e
    cases ew : memWrite cfg (BitVec.ofNat 8 addr) b s with
    | error err => simp [ew] at e
    | ok u =>
      simp only [ew] at e
      exact ih (memWrite_keeps_inv h ew) e

theorem loadProgram_keeps_inv {cfg : Config} {bytes : List Byte} {s t : State} (h : s.Inv cfg)
    (e : loadProgram cfg bytes s = .ok t) : t.Inv cfg := by
  unfold loadProgram at e
  split at e
  · cases e
  · exact writeBytes_keeps_inv h e

theorem inSet_keeps_inv {cfg : Config} {addr : Nat} {v : Byte} {s t : State} (h : s.Inv cfg)
    (e : inSet addr v s = .ok t) : t.Inv cfg := by
  obtain ⟨_, rfl⟩ := inSet_ok.mp e
  exact h.of_rom_eq (State.writePort_rom ..)

theorem stepUnder_keeps_inv {cfg : Config} {s t : State} (h : s.Inv cfg)
    (e : stepUnder cfg s = .next t) : t.Inv cfg := by
  obtain ⟨-, hrom, -⟩ := stepUnder_store e
  exact h.of_rom_eq hrom

/-- An operation that keeps the invariant keeps it through its reply: a usage error changes nothing. -/
theorem replyOf_keeps_inv {cfg : Config} {s t : State} {r : Except UsageError State} (h : s.Inv cfg)
    (keeps : ∀ u, r = .ok u → u.Inv cfg) (e : (replyOf s r).2 = some t) : t.Inv cfg := by
  rcases replyOf_state.mp e with hok | ⟨-, rfl⟩
  · exact keeps t hok
  · exact h

theorem serve_keeps_inv {cfg : Config} {r : Request} {s t : State} (h : s.Inv cfg)
    (e : (serve cfg r s).2 = some t) : t.Inv cfg := by
  cases r with
  | memWrite addr v => exact replyOf_keeps_inv h (fun _ => memWrite_keeps_inv h) e
  | load bytes => exact replyOf_keeps_inv h (fun _ => loadProgram_keeps_inv h) e
  | inSet addr v => exact replyOf_keeps_inv h (fun _ => inSet_keeps_inv h) e
  | freeze => cases e; exact h.of_rom_eq (freeze_rom s)
  | outGet addr =>
    simp only [serve] at e
    cases eo : outGet addr s <;> simp only [eo, Option.some.injEq] at e <;> exact e ▸ h
  | step =>
    simp only [serve] at e
    cases es : stepUnder cfg s with
    | next u => simp only [es, Option.some.injEq] at e; exact stepUnder_keeps_inv h (e ▸ es)
    | fault f => simp [es] at e
    | refused f => simp only [es, Option.some.injEq] at e; exact e ▸ h

/-- Settles O32: only loader writes change the store, and each of them keeps the canonical form. -/
theorem storeFormIsKept : Obligations.StoreFormIsKept :=
  ⟨fun s _ h e => stepUnder_keeps_inv h (step_eq_stepUnder s ▸ e), fun _ _ _ _ h e => serve_keeps_inv h e⟩

end Sys2Proof.Machine
end

section
/-!
What an instruction writes. The eight ALU instructions share one form (R110): two operands read, one result,
one flag update. `AluForm` names it, `aluForm` gives it for each of them, and the facts about writes are
proved once for the form and then for the eight other instructions.
-/

namespace Sys2Proof.Machine

open Sys2Proof.Claims

/-! ## The statements' bit tests and the model's -/

/-- The bit by division is the bit of the word. -/
theorem bit_eq_getLsbD (v : Byte) (k : BitPos) : bit v k = v.getLsbD k.val :=
  Nat.testBit_eq_decide_div_mod_eq.symm

theorem condBit_eq_selected (n : CondSel) (s : State) : s.condBit n = selected n s := by
  obtain ⟨source, k⟩ := n
  cases source <;> exact (bit_eq_getLsbD _ k).symm

/-! ## Control transfer -/

/-- Both outcomes of a branch (R130). -/
theorem execUnder_bib (cfg : Config) (n : CondSel) (tgt : Byte) (s : State) :
    execUnder cfg (.bib n tgt) s = .next (if selected n s then s.setPc tgt else s) := by
  rw [← condBit_eq_selected]
  rfl

/-- A jump that completes (R131). -/
theorem execUnder_jmp_next {cfg : Config} {tgt : Byte} {s t : State} :
    execUnder cfg (.jmp tgt) s = .next t ↔
      ¬(cfg.jmpAdjust = 1 ∧ tgt = 0) ∧ t = s.setPc (tgt - BitVec.ofNat 8 cfg.jmpAdjust.val) := by
  simp only [execUnder, jmpUnder]
  split
  next hz => exact ⟨nofun, fun h => absurd hz h.1⟩
  next hz => simp only [hz, not_false_eq_true, true_and, Host.Outcome.next.injEq, eq_comm (a := t)]

/-- The adjusted target, where it exists, is the target less `JMP_ADJUST` as a number (R131). -/
theorem jmpTarget_toNat {adjust : Fin 2} {tgt : Byte} (h : ¬(adjust = 1 ∧ tgt = 0)) :
    (tgt - BitVec.ofNat 8 adjust.val).toNat + adjust.val = tgt.toNat := by
  match adjust with
  | 0 => simp
  | 1 =>
    have hne : tgt ≠ 0 := fun e => h ⟨rfl, e⟩
    have hpos : tgt.toNat ≠ 0 := fun e => hne (BitVec.eq_of_toNat_eq e)
    simp only [Fin.val_one]
    bv_omega

/-! ## The form of the ALU instructions -/

/-- What an ALU instruction does: its destination, its two source registers, the order of its two writes,
and the result and the flag update as functions of the operands. -/
structure AluForm where
  dest   : Reg
  src1   : Reg
  src2   : Reg
  order  : AluOrder
  value  : Byte → Byte → Byte
  update : Byte → Byte → State → State

/-- The state an ALU instruction leaves: both operands are read before anything is written (R110). -/
def AluForm.run (f : AluForm) (s : State) : State :=
  aluWrite f.order (f.update (s.reg f.src1) (s.reg f.src2)) f.dest
    (f.value (s.reg f.src1) (s.reg f.src2)) s

/-- The form of each instruction that updates flags (R111 to R116, R121, R122). -/
def aluForm (cfg : Config) : Instr → Option AluForm
  | .add d s1 s2 => some ⟨d, s1, s2, cfg.aluOrder .add,
      fun a b => BitVec.ofNat 8 (a.toNat + b.toNat), fun a b => sumFlags cfg (a.toNat + b.toNat)⟩
  | .sub d s1 s2 => some ⟨d, s1, s2, cfg.aluOrder .sub,
      fun a b => BitVec.ofInt 8 (a.toNat - b.toNat), fun a b => differenceFlags cfg (a.toNat - b.toNat)⟩
  | .and d s1 s2 => some ⟨d, s1, s2, cfg.aluOrder .and,
      fun a b => a &&& b, fun a b => logicFlags cfg (a &&& b)⟩
  | .or d s1 s2 => some ⟨d, s1, s2, cfg.aluOrder .or,
      fun a b => a ||| b, fun a b => logicFlags cfg (a ||| b)⟩
  | .nor d s1 s2 => some ⟨d, s1, s2, cfg.aluOrder .nor,
      fun a b => ~~~(a ||| b), fun a b => norFlags cfg (~~~(a ||| b))⟩
  | .xor d s1 s2 => some ⟨d, s1, s2, cfg.aluOrder .xor,
      fun a b => a ^^^ b, fun a b => logicFlags cfg (a ^^^ b)⟩
  | .inc d => some ⟨d, d, d, cfg.aluOrder .inc,
      fun a _ => BitVec.ofNat 8 (a.toNat + 1), fun a _ => sumFlags cfg (a.toNat + 1)⟩
  | .rolr d => some ⟨d, d, d, cfg.aluOrder .rolr,
      fun a _ => rotateByte a, fun a _ => rotateFlags cfg (a.getLsbD 0)⟩
  | .nop | .rnv _ | .bib .. | .jmp _ | .mov .. | .ldi .. | .inPort .. | .outPort .. => none

theorem isSome_aluForm (cfg : Config) (i : Instr) : (aluForm cfg i).isSome = updatesFlags i := by
  cases i <;> rfl

/-- The form is the instruction's meaning. -/
theorem execUnder_aluForm {cfg : Config} {i : Instr} {f : AluForm} (hf : aluForm cfg i = some f)
    (s : State) : execUnder cfg i s = .next (f.run s) := by
  cases i <;> cases hf <;> rfl

theorem aluForm_dest {cfg : Config} {i : Instr} {f : AluForm} (hf : aluForm cfg i = some f) :
    destination i = some f.dest := by
  cases i <;> cases hf <;> rfl

theorem aluForm_sources {cfg : Config} {i : Instr} {f : AluForm} (hf : aluForm cfg i = some f) :
    f.src1 ∈ sources i ∧ f.src2 ∈ sources i := by
  cases i <;> cases hf <;> simp [sources]

/-- A flag update, in the sense of `FlagUpdate`, that leaves the reserved bits of cell 15 alone (R23). -/
def UpdatesOnlyFlags (cfg : Config) (update : State → State) : Prop :=
  ∃ upd, FlagUpdate update upd ∧
    ∀ k b, k ≠ cfg.flagZ → k ≠ cfg.flagC → k ≠ cfg.flagS → upd k b = b

theorem updatesOnlyFlags_sum (cfg : Config) (raw : Nat) : UpdatesOnlyFlags cfg (sumFlags cfg raw) :=
  ⟨_, flagUpdate_sum cfg raw, fun _ _ _ hC _ => by simp [hC]⟩

theorem updatesOnlyFlags_difference (cfg : Config) (raw : Int) :
    UpdatesOnlyFlags cfg (differenceFlags cfg raw) :=
  ⟨_, flagUpdate_difference cfg raw, fun _ _ hZ _ hS => by simp [hZ, hS]⟩

theorem updatesOnlyFlags_logic (cfg : Config) (r : Byte) : UpdatesOnlyFlags cfg (logicFlags cfg r) :=
  ⟨_, flagUpdate_logic cfg r, fun _ _ hZ _ _ => by simp [hZ]⟩

theorem updatesOnlyFlags_nor (cfg : Config) (r : Byte) : UpdatesOnlyFlags cfg (norFlags cfg r) :=
  ⟨_, flagUpdate_nor cfg r, fun _ _ hZ _ _ => by simp [hZ]⟩

theorem updatesOnlyFlags_rotate (cfg : Config) (c : Bool) : UpdatesOnlyFlags cfg (rotateFlags cfg c) :=
  ⟨_, flagUpdate_rotate cfg c, fun _ _ _ hC _ => by simp [hC]⟩

/-- The flag update of every ALU instruction is one (R24). -/
theorem aluForm_updatesOnlyFlags {cfg : Config} {i : Instr} {f : AluForm}
    (hf : aluForm cfg i = some f) (a b : Byte) : UpdatesOnlyFlags cfg (f.update a b) := by
  cases i <;> cases hf
  case add | inc => exact updatesOnlyFlags_sum ..
  case sub => exact updatesOnlyFlags_difference ..
  case and | or | xor => exact updatesOnlyFlags_logic ..
  case nor => exact updatesOnlyFlags_nor ..
  case rolr => exact updatesOnlyFlags_rotate ..

/-- Everything an ALU instruction leaves alone: the other registers, the program counter and, unless cell 15
is the destination, the reserved bits of cell 15. -/
theorem aluForm_frame {cfg : Config} {i : Instr} {f : AluForm} (hf : aluForm cfg i = some f)
    (s : State) :
    (∀ r : Reg, r ≠ f.dest → r ≠ 15 → (f.run s).reg r = s.reg r) ∧ (f.run s).pc = s.pc ∧
      (f.dest ≠ 15 → ∀ k : BitPos, k ≠ cfg.flagZ → k ≠ cfg.flagC → k ≠ cfg.flagS →
        bit ((f.run s).reg 15) k = bit (s.reg 15) k) := by
  obtain ⟨upd, hupd, hreserved⟩ :=
    aluForm_updatesOnlyFlags hf (s.reg f.src1) (s.reg f.src2)
  obtain ⟨hreg, hpc, -, -, -, -, hflags, -⟩ :=
    aluWrite_spec hupd f.order f.dest (f.value (s.reg f.src1) (s.reg f.src2)) s
  refine ⟨hreg, hpc, fun hd k hZ hC hS => ?_⟩
  rw [bit_eq_getLsbD, bit_eq_getLsbD, ← hreserved k ((s.reg 15).getLsbD k.val) hZ hC hS]
  exact (hflags hd).2 k

/-- Settles O24: the program counter is written by `bib` and `jmp` alone. -/
theorem pcWrites : Obligations.PcWrites := by
  intro cfg i s t h
  have alu {f : AluForm} (hf : aluForm cfg i = some f) : t.pc = s.pc := by
    cases (execUnder_aluForm hf s).symm.trans h
    obtain ⟨-, hpc, -⟩ := aluForm_frame hf s
    exact hpc
  cases i with
  | add | sub | and | or | nor | xor | inc | rolr => exact alu rfl
  | nop | rnv | mov | ldi | inPort | outPort => cases h; rfl
  | bib n tgt =>
    cases (execUnder_bib cfg n tgt s).symm.trans h
    exact apply_ite State.pc ..
  | jmp tgt =>
    obtain ⟨hok, rfl⟩ := execUnder_jmp_next.mp h
    exact jmpTarget_toNat hok

/-- Settles O25: an ALU instruction writes its destination and cell 15, any other its destination. -/
theorem registerWrites : Obligations.RegisterWrites := by
  intro cfg i s t r h hd h15
  have alu {f : AluForm} (hf : aluForm cfg i = some f) : t.reg r = s.reg r := by
    have hu : updatesFlags i = true := by rw [← isSome_aluForm cfg, hf]; rfl
    cases (execUnder_aluForm hf s).symm.trans h
    obtain ⟨hreg, -⟩ := aluForm_frame hf s
    have hdest : r ≠ f.dest := fun e => hd (by rw [e, aluForm_dest hf])
    have hflags : r ≠ 15 := fun e => absurd (h15 e) (by simp [hu])
    exact hreg r hdest hflags
  cases i with
  | add | sub | and | or | nor | xor | inc | rolr => exact alu rfl
  | nop | outPort => cases h; rfl
  | rnv d | mov d _ | ldi d _ | inPort d _ =>
    cases h
    exact State.reg_setReg_other s _ fun e => hd (congrArg some e)
  | bib n tgt =>
    cases (execUnder_bib cfg n tgt s).symm.trans h
    cases selected n s <;> rfl
  | jmp tgt =>
    obtain ⟨-, rfl⟩ := execUnder_jmp_next.mp h
    rfl

/-- Settles O28: an ALU instruction by its flag update, any other because it leaves cell 15 (O25). -/
theorem reservedFlagBits : Obligations.ReservedFlagBits := by
  intro cfg i s t k h hd hZ hC hS
  cases hf : aluForm cfg i with
  | some f =>
    cases (execUnder_aluForm hf s).symm.trans h
    obtain ⟨-, -, hreserved⟩ := aluForm_frame hf s
    have hdest : f.dest ≠ 15 := fun e => hd (by rw [aluForm_dest hf, e])
    exact hreserved hdest k hZ hC hS
  | none =>
    have hu : updatesFlags i = false := by rw [← isSome_aluForm cfg, hf]; rfl
    rw [registerWrites cfg i s t 15 h hd.symm fun _ => hu]

end Sys2Proof.Machine
end

section
/-!
The flags byte as noninterference (R25): from two states that differ at most in register cell 15, every
instruction that names no such source goes to two such states.
-/

namespace Sys2Proof.Machine

open Sys2Proof.Claims

/-! ## The state's writes keep two such states alike -/

theorem SameButFlags.symm {s t : State} (h : SameButFlags s t) : SameButFlags t s := by
  obtain ⟨hr, hpc, hrom, hph, hport, hd⟩ := h
  exact ⟨fun r h15 => (hr r h15).symm, hpc.symm, hrom.symm, hph.symm, hport.symm, hd.symm⟩

theorem SameButFlags.setReg {s t : State} (h : SameButFlags s t) (d : Reg) (v : Byte) :
    SameButFlags (s.setReg d v) (t.setReg d v) := by
  obtain ⟨hr, hrest⟩ := h
  refine ⟨fun r h15 => ?_, hrest⟩
  rw [State.reg_setReg, State.reg_setReg, hr r h15]

theorem SameButFlags.setPc {s t : State} (h : SameButFlags s t) (q : Byte) :
    SameButFlags (s.setPc q) (t.setPc q) := by
  obtain ⟨hr, -, hrest⟩ := h
  exact ⟨hr, rfl, hrest⟩

theorem SameButFlags.writePort {s t : State} (h : SameButFlags s t) (p : Port) (v : Byte) :
    SameButFlags (s.writePort p v) (t.writePort p v) := by
  obtain ⟨hr, hpc, hrom, hph, hport, hd⟩ := h
  exact ⟨hr, hpc, hrom, hph, congrArg (·.set p v) hport, hd⟩

theorem SameButFlags.readPort {s t : State} (h : SameButFlags s t) (p : Port) :
    t.readPort p = s.readPort p := by
  obtain ⟨-, -, -, -, hport, -⟩ := h
  exact congrArg (·[p]) hport

theorem SameButFlags.draws {s t : State} (h : SameButFlags s t) : t.draws = s.draws := by
  obtain ⟨-, -, -, -, -, hd⟩ := h
  exact hd

theorem SameButFlags.flagUpdate {s t : State} (h : SameButFlags s t) {update : State → State}
    {upd : BitPos → Bool → Bool} (hu : FlagUpdate update upd) :
    SameButFlags (update s) (update t) :=
  ((hu.frame s).symm.trans h).trans (hu.frame t)

theorem SameButFlags.aluWrite {s t : State} (h : SameButFlags s t) {update : State → State}
    {upd : BitPos → Bool → Bool} (hu : FlagUpdate update upd) (order : AluOrder) (d : Reg) (v : Byte) :
    SameButFlags (aluWrite order update d v s) (aluWrite order update d v t) := by
  cases order with
  | flagsFirst => exact (h.flagUpdate hu).setReg d v
  | resultFirst => exact (h.setReg d v).flagUpdate hu

theorem SameButFlags.atDraws {s t : State} (h : SameButFlags s t) (n : Nat) :
    SameButFlags (s.atDraws n) (t.atDraws n) := by
  obtain ⟨hr, hpc, hrom, hph, hport, -⟩ := h
  exact ⟨hr, hpc, hrom, hph, hport, rfl⟩

/-! ## The meanings -/

/-- The register a branch tests is one of its sources. -/
theorem condCell_mem_sources (n : CondSel) (tgt : Byte) :
    CondSource.cell n.source ∈ sources (.bib n tgt) := by
  obtain ⟨source, k⟩ := n
  cases source <;> simp [sources, CondSource.cell]

/-- An instruction that does not name register 15 as a source completes on both states or on neither, and
leaves them alike. -/
theorem execUnder_sameButFlags {cfg : Config} {i : Instr} {s s' t : State} (h : SameButFlags s s')
    (h15 : 15 ∉ sources i) (e : execUnder cfg i s = .next t) :
    ∃ t', execUnder cfg i s' = .next t' ∧ SameButFlags t t' := by
  have hsrc : ∀ r ∈ sources i, s'.reg r = s.reg r := by
    obtain ⟨hreg, -⟩ := h
    exact fun r hr => hreg r (ne_of_mem_of_not_mem hr h15)
  have alu {f : AluForm} (hf : aluForm cfg i = some f) :
      ∃ t', execUnder cfg i s' = .next t' ∧ SameButFlags t t' := by
    obtain ⟨h1, h2⟩ := aluForm_sources hf
    obtain ⟨upd, hupd, -⟩ := aluForm_updatesOnlyFlags hf (s.reg f.src1) (s.reg f.src2)
    cases (execUnder_aluForm hf s).symm.trans e
    refine ⟨_, execUnder_aluForm hf s', ?_⟩
    rw [AluForm.run, AluForm.run, hsrc _ h1, hsrc _ h2]
    exact h.aluWrite hupd ..
  cases i with
  | add | sub | and | or | nor | xor | inc | rolr => exact alu rfl
  | nop => cases e; exact ⟨_, rfl, h⟩
  | rnv d =>
    cases e
    refine ⟨_, rfl, ?_⟩
    rw [h.draws]
    exact (h.setReg d _).atDraws _
  | bib n tgt =>
    cases e
    refine ⟨_, rfl, ?_⟩
    have hbit : s'.condBit n = s.condBit n := by
      rw [State.condBit, State.condBit, hsrc _ (condCell_mem_sources n tgt)]
    rw [hbit]
    split
    · exact h.setPc tgt
    · exact h
  | jmp tgt =>
    obtain ⟨hok, rfl⟩ := execUnder_jmp_next.mp e
    exact ⟨_, execUnder_jmp_next.mpr ⟨hok, rfl⟩, h.setPc _⟩
  | mov d src =>
    cases e
    refine ⟨_, rfl, ?_⟩
    rw [hsrc src (by simp [sources])]
    exact h.setReg d _
  | ldi d imm => cases e; exact ⟨_, rfl, h.setReg d imm⟩
  | inPort d p =>
    cases e
    refine ⟨_, rfl, ?_⟩
    rw [h.readPort]
    exact h.setReg d _
  | outPort p r =>
    cases e
    refine ⟨_, rfl, ?_⟩
    rw [hsrc r (by simp [sources])]
    exact h.writePort p _

/-- Settles O29: the two states of the statement differ at most in cell 15. -/
theorem flagsAreNoInput : Obligations.FlagsAreNoInput := by
  intro cfg i s t f h15 e
  obtain ⟨t', e', h⟩ := execUnder_sameButFlags (sameButFlags_setReg s f) h15 e
  have hports : SamePorts t t' := h.readPort
  obtain ⟨hr, hpc, hrom, hph, -, hd⟩ := h
  exact ⟨t', e', hr, hpc, hports, hrom, hph, hd⟩

end Sys2Proof.Machine
end

section
/-!
The fetch (R27): its stops beside the completing outcome of `fetch_next`, and the fetch of a whole
instruction from loaded bytes (R34, R35, R39).
-/

namespace Sys2Proof.Machine

/-! ## What a cell reads as, and the next program counter -/

theorem Memory.read_eq_some {fill : Option Byte} {m : Memory} {a : Nat} {b : Byte} :
    m.read fill a = some b ↔ m.lookup a = some b ∨ m.lookup a = none ∧ fill = some b := by
  cases h : m.lookup a <;> simp [Memory.read, h]

theorem Memory.read_eq_none {fill : Option Byte} {m : Memory} {a : Nat} :
    m.read fill a = none ↔ m.lookup a = none ∧ fill = none := by
  cases h : m.lookup a <;> simp [Memory.read, h]

theorem nextPc_of_ne {cfg : Config} {pc : Byte} (h : pc ≠ 255) : nextPc cfg pc = some (pc + 1) :=
  if_neg h

/-- Under `PC_OVERFLOW = wrap` the counter advances modulo 256. -/
theorem nextPc_of_wrap {cfg : Config} (h : cfg.pcOverflow = .wrap) (pc : Byte) :
    nextPc cfg pc = some (pc + 1) := by
  by_cases h255 : pc = 255
  · subst h255; simp [nextPc, h]
  · exact nextPc_of_ne h255

theorem nextPc_eq_none {cfg : Config} {pc : Byte} :
    nextPc cfg pc = none ↔ pc = 255 ∧ cfg.pcOverflow = .fault := by
  by_cases h255 : pc = 255
  · subst h255
    cases h : cfg.pcOverflow <;> simp [nextPc, h]
  · simp only [nextPc_of_ne h255, reduceCtorEq, h255, false_and]

/-- The advance goes to the next program counter, or faults where there is none (R27). -/
theorem advance_eq_nextPc (cfg : Config) (s : State) :
    advance cfg s = (nextPc cfg s.pc).elim (.fault .pcOverflow) fun q => .next (s.setPc q) := by
  unfold advance nextPc
  by_cases h255 : s.pc = 255
  · rw [if_pos h255, if_pos h255]
    cases cfg.pcOverflow <;> rfl
  · rw [if_neg h255, if_neg h255]
    rfl

/-! ## The stops of a fetch -/

/-- A fetch is refused exactly on a writable store (R184; D18, log 16). -/
theorem fetch_refused {cfg : Config} {s : State} {r : Refusal} :
    fetch cfg s = .refused r ↔ s.romPhase = .writable ∧ r = .stepBeforeFreeze := by
  simp only [fetch, advance_eq_nextPc]
  cases s.romPhase with
  | writable => simp [eq_comm]
  | frozen =>
    cases Memory.read cfg.romFill s.rom s.pc.toNat <;> cases nextPc cfg s.pc <;> simp

/-- A fetch faults on a cell without a value, and then on a counter that cannot advance (R181, R186). -/
theorem fetch_fault {cfg : Config} {s : State} {f : Fault} :
    fetch cfg s = .fault f ↔ s.romPhase = .frozen ∧
      (Memory.read cfg.romFill s.rom s.pc.toNat = none ∧ f = .unloadedFetch s.pc ∨
        (∃ b, Memory.read cfg.romFill s.rom s.pc.toNat = some b) ∧ nextPc cfg s.pc = none ∧
          f = .pcOverflow) := by
  simp only [fetch, advance_eq_nextPc]
  cases s.romPhase with
  | writable => simp
  | frozen =>
    cases Memory.read cfg.romFill s.rom s.pc.toNat <;> cases nextPc cfg s.pc <;> simp [eq_comm]

/-- Settles O21: the refusal, the two faults and the completing fetch, each by what it needs. -/
theorem fetchOutcomes : Obligations.FetchOutcomes := by
  intro cfg s
  have hpc255 (h : s.pc.toNat = 255) : s.pc = 255 := BitVec.eq_of_toNat_eq h
  refine ⟨fun hph => fetch_refused.mpr ⟨hph, rfl⟩, fun hph hl hfill =>
    fetch_fault.mpr ⟨hph, .inl ⟨Memory.read_eq_none.mpr ⟨hl, hfill⟩, rfl⟩⟩, fun b hph hb => ?_⟩
  have hread := Memory.read_eq_some.mpr hb
  refine ⟨fun q hne hq => ?_, fun h255 hcfg => ?_, fun h255 hcfg => ?_⟩
  · have hq' : q = s.pc + 1 := by bv_omega
    have hne' : s.pc ≠ 255 := fun e => hne (by rw [e]; rfl)
    exact fetch_next.mpr ⟨hph, hread, q, hq' ▸ nextPc_of_ne hne', rfl⟩
  · exact fetch_fault.mpr ⟨hph, .inr ⟨⟨b, hread⟩, nextPc_eq_none.mpr ⟨hpc255 h255, hcfg⟩, rfl⟩⟩
  · have hwrap := nextPc_of_wrap hcfg s.pc
    rw [hpc255 h255] at hwrap
    exact fetch_next.mpr ⟨hph, hread, 0, hpc255 h255 ▸ hwrap, rfl⟩

/-! ## The fetch of an instruction -/

theorem fetchInstr_one {cfg : Config} {s s1 : State} {b1 : Byte} {m : Mnemonic}
    (h1 : fetch cfg s = .next (b1, s1)) (hm : mnemonicOf cfg.opc (hiNibble b1) = some m)
    (l : m.length = 1) : fetchInstr cfg s = .next (m.build b1 0, s1) := by
  simp [fetchInstr, h1, hm, l]

theorem fetchInstr_two {cfg : Config} {s s1 s2 : State} {b1 b2 : Byte} {m : Mnemonic}
    (h1 : fetch cfg s = .next (b1, s1)) (hm : mnemonicOf cfg.opc (hiNibble b1) = some m)
    (l : m.length = 2) (h2 : fetch cfg s1 = .next (b2, s2)) :
    fetchInstr cfg s = .next (m.build b1 b2, s2) := by
  simp [fetchInstr, h1, hm, l, h2]

theorem runFetched_of_fetchInstr {cfg : Config} {run : Instr → State → Result} {s u : State} {i : Instr}
    (h : fetchInstr cfg s = .next (i, u)) : runFetched cfg run s = run i u := by
  simp [runFetched, h]

/-- Where the bytes at the program counter can be fetched: loaded below address 255, or loaded anywhere
under `PC_OVERFLOW = wrap`. -/
def State.loadedAtPc (cfg : Config) (s : State) (bytes : List Byte) : Prop :=
  s.loadedAt cfg s.pc.toNat bytes ∨ (cfg.pcOverflow = .wrap ∧ s.loadedAcross cfg s.pc.toNat bytes)

/-- The `k`-th fetch from such bytes reads byte `k` and advances the counter to byte `k + 1`. -/
theorem fetch_of_loadedAtPc {cfg : Config} {s : State} {bytes : List Byte}
    (h : s.loadedAtPc cfg bytes) (hph : s.romPhase = .frozen) (k : Nat) (hk : k < bytes.length) :
    fetch cfg (s.setPc (s.pc + BitVec.ofNat 8 k)) =
      .next (bytes[k], s.setPc (s.pc + BitVec.ofNat 8 (k + 1))) := by
  have hnext : s.pc + BitVec.ofNat 8 (k + 1) = s.pc + BitVec.ofNat 8 k + 1 := by
    rw [BitVec.ofNat_add, BitVec.add_assoc]
    rfl
  have haddr : (s.pc + BitVec.ofNat 8 k).toNat = (s.pc.toNat + k) % 256 := by simp
  refine fetch_next.mpr ⟨hph, ?_, _, ?_, rfl⟩
  · rw [State.setPc_pc, haddr, State.setPc_rom]
    rcases h with ⟨hlen, hat⟩ | ⟨-, hacross⟩
    · rw [Nat.mod_eq_of_lt (by omega)]
      exact hat k hk
    · exact hacross k hk
  · rw [State.setPc_pc, hnext]
    rcases h with ⟨hlen, -⟩ | ⟨hwrap, -⟩
    · refine nextPc_of_ne fun e => ?_
      have h255 : (s.pc.toNat + k) % 256 = 255 := by rw [← haddr, e]; rfl
      omega
    · exact nextPc_of_wrap hwrap _

/-- Fetching from loaded bytes agrees with decoding them (R39), and leaves the counter past them (R26). -/
theorem fetchInstr_of_loadedAtPc {cfg : Config} {s : State} {bytes : List Byte} {i : Instr}
    (h : s.loadedAtPc cfg bytes) (hph : s.romPhase = .frozen)
    (hd : decode cfg.opc bytes = .ok (i, [])) :
    fetchInstr cfg s = .next (i, s.setPc (s.pc + BitVec.ofNat 8 bytes.length)) := by
  have hstart : s.setPc (s.pc + BitVec.ofNat 8 0) = s := by simp [State.setPc]
  obtain ⟨b1, m, hm, ⟨l, rfl, rfl⟩ | ⟨l, b2, rfl, rfl⟩⟩ := decode_cases hd
  · have h1 := fetch_of_loadedAtPc h hph 0 (by simp)
    rw [hstart] at h1
    exact fetchInstr_one h1 hm l
  · have h1 := fetch_of_loadedAtPc h hph 0 (by simp)
    rw [hstart] at h1
    exact fetchInstr_two h1 hm l (fetch_of_loadedAtPc h hph 1 (by simp))

theorem stepUnder_of_loadedAtPc {cfg : Config} {s : State} {bytes : List Byte} {i : Instr}
    (h : s.loadedAtPc cfg bytes) (hph : s.romPhase = .frozen)
    (hd : decode cfg.opc bytes = .ok (i, [])) :
    stepUnder cfg s = execUnder cfg i (s.setPc (s.pc + BitVec.ofNat 8 bytes.length)) :=
  runFetched_of_fetchInstr (fetchInstr_of_loadedAtPc h hph hd)

/-- Settles O20: the fetches read the bytes that the decoder is given. -/
theorem stepRunsDecoded : Obligations.StepRunsDecoded := by
  refine ⟨fun i bytes s hph hd hl => ?_, fun cfg i bytes s hph hd hl => ?_⟩
  · rw [step_eq_stepUnder, exec_eq_execUnder]
    exact stepUnder_of_loadedAtPc (.inl hl) hph hd
  · exact stepUnder_of_loadedAtPc hl hph hd

end Sys2Proof.Machine
end

section
/-!
The state after reset (R40, R200): what each cell holds, in every configuration.
-/

namespace Sys2Proof.Machine

@[simp] theorem State.resetUnder_reg (cfg : Config) (r : Reg) :
    (State.resetUnder cfg).reg r = resetByte cfg.regReset (Config.freeReg r) := by
  simp [State.resetUnder, State.reg]

@[simp] theorem State.resetUnder_readPort (cfg : Config) (p : Port) :
    (State.resetUnder cfg).readPort p = resetByte cfg.portReset (Config.freePort p) := by
  simp [State.resetUnder, State.readPort]

@[simp] theorem resetByte_byte (v free : Byte) : resetByte (.byte v) free = v := rfl

/-- Nothing is written in a fresh store, so every cell reads as `ROM_FILL` says (R52). -/
theorem memRead_resetUnder (cfg : Config) (a : Byte) :
    memRead cfg a (State.resetUnder cfg) = cfg.romFill := rfl

/-- Settles O34: the reference configuration is one that gives the byte 0x00 to every cell. -/
theorem resetState : Obligations.ResetState := by
  have cells (cfg : Config) (v w : Byte) (hv : cfg.regReset = .byte v) (hw : cfg.portReset = .byte w) :
      (∀ r, (State.resetUnder cfg).reg r = v) ∧ ∀ p, (State.resetUnder cfg).readPort p = w :=
    ⟨fun r => by simp [hv], fun p => by simp [hw]⟩
  obtain ⟨hreg, hport⟩ := cells reference 0 0 rfl rfl
  exact ⟨rfl, rfl, hreg, hport, memRead_resetUnder reference, cells⟩

end Sys2Proof.Machine
end

section
/-!
The port bank from both sides (R54 to R56, R63): `out` is the only instruction that writes it, and the
environment's setter and getter see the cells that `in` and `out` use.
-/

namespace Sys2Proof.Machine

open Sys2Proof.Claims

/-! ## The CPU's side -/

/-- An ALU instruction leaves the port bank alone (R56). -/
theorem aluForm_port {cfg : Config} {i : Instr} {f : AluForm} (hf : aluForm cfg i = some f)
    (s : State) : (f.run s).port = s.port := by
  obtain ⟨upd, hupd, -⟩ := aluForm_updatesOnlyFlags hf (s.reg f.src1) (s.reg f.src2)
  obtain ⟨-, -, -, -, hport, -⟩ :=
    aluWrite_spec hupd f.order f.dest (f.value (s.reg f.src1) (s.reg f.src2)) s
  exact hport

/-- Everything an instruction can do to the port bank (R56, R151). -/
theorem execUnder_port {cfg : Config} {i : Instr} {s t : State} (h : execUnder cfg i s = .next t) :
    t.port = s.port ∨ ∃ p r, i = .outPort p r ∧ t = s.writePort p (s.reg r) := by
  have alu {f : AluForm} (hf : aluForm cfg i = some f) : t.port = s.port := by
    cases (execUnder_aluForm hf s).symm.trans h
    exact aluForm_port hf s
  cases i with
  | add | sub | and | or | nor | xor | inc | rolr => exact .inl (alu rfl)
  | nop | rnv | mov | ldi | inPort => cases h; exact .inl rfl
  | bib n tgt =>
    cases (execUnder_bib cfg n tgt s).symm.trans h
    cases selected n s <;> exact .inl rfl
  | jmp tgt =>
    obtain ⟨-, rfl⟩ := execUnder_jmp_next.mp h
    exact .inl rfl
  | outPort p r => cases h; exact .inr ⟨p, r, rfl, rfl⟩

/-- Settles O26: a changed port bank was written by `out`, and a changed cell is the one it names. -/
theorem portWrites : Obligations.PortWrites := by
  intro cfg i s t p h hne
  rcases execUnder_port h with hport | ⟨q, r, rfl, rfl⟩
  · exact absurd (congrArg (·[p]) hport) hne
  · have hq : q = p := by
      by_contra hq
      exact hne (by rw [State.readPort_writePort, if_neg hq])
    subst hq
    exact ⟨r, rfl, State.readPort_writePort_same ..⟩

/-! ## The environment's side -/

/-- A rejected input setting (R54, R182). -/
theorem inSet_error {addr : Nat} {v : Byte} {s : State} {e : UsageError} :
    inSet addr v s = .error e ↔ 8 ≤ addr ∧ e = .portDirection := by
  unfold inSet
  split <;> simp [eq_comm (a := e)] <;> omega

/-- An accepted output reading (R55). -/
theorem outGet_ok {addr : Nat} {v : Byte} {s : State} :
    outGet addr s = .ok v ↔ ∃ h : 8 ≤ addr ∧ addr < 16, v = s.readPort ⟨addr, h.2⟩ := by
  unfold outGet
  split <;> simp_all [eq_comm]

/-- A rejected output reading (R55, R182). -/
theorem outGet_error {addr : Nat} {s : State} {e : UsageError} :
    outGet addr s = .error e ↔ (addr < 8 ∨ 15 < addr) ∧ e = .portDirection := by
  unfold outGet
  split <;> simp [eq_comm (a := e)] <;> omega

/-- An output cell is read where it stands (R55). -/
theorem outGet_port {p : Port} (h : 8 ≤ p.val) (s : State) : outGet p.val s = .ok (s.readPort p) :=
  outGet_ok.mpr ⟨⟨h, p.isLt⟩, rfl⟩

/-- Settles O40: the setter is a port write at addresses 0 to 7 and an error at any other. -/
theorem inputSetter : Obligations.InputSetter := by
  intro cfg addr v s
  constructor
  · intro haddr
    have hlt : addr < 8 := by omega
    have hset : inSet addr v s = .ok _ := inSet_ok.mpr ⟨hlt, rfl⟩
    refine ⟨_, hset, fun p => ?_, fun _ => rfl, rfl, ⟨rfl, fun _ => rfl⟩, rfl, ?_⟩
    · simp only [State.readPort_writePort, Fin.ext_iff, eq_comm]
    · simp only [serve, hset, replyOf]
  · intro haddr
    have hset : inSet addr v s = .error _ := inSet_error.mpr ⟨haddr, rfl⟩
    simp only [serve, hset, replyOf]

/-- Settles O41: the getter is a port read at addresses 8 to 15 and an error at any other. -/
theorem outputGetter : Obligations.OutputGetter := by
  intro cfg addr s
  constructor
  · rintro p rfl haddr
    simp only [serve, outGet_port haddr]
  · intro haddr
    have hget : outGet addr s = .error _ := outGet_error.mpr ⟨haddr, rfl⟩
    simp only [serve, hget]

/-- Settles O46: both sides read and write the same cell, and a cell reads as last written. -/
theorem portsCarryValues : Obligations.PortsCarryValues := by
  constructor
  · intro d p v s t hset
    obtain ⟨-, rfl⟩ := inSet_ok.mp hset
    exact ⟨_, rfl, by rw [State.reg_setReg_same, State.readPort_writePort_same]⟩
  · intro p r s t hp h
    cases h
    rw [outGet_port hp, State.readPort_writePort_same]

end Sys2Proof.Machine
end

section
/-!
The program store from the environment's side (R51 to R53, R66, R202): what the loader's writes leave in
each cell, and that no request changes a frozen store.
-/

namespace Sys2Proof.Machine

open Sys2Proof.Claims

/-! ## The loader's write -/

/-- Read after a loader write (R51, R52). -/
theorem memRead_memWrite {cfg : Config} {addr v : Byte} {s t : State} (h : s.Inv cfg)
    (e : memWrite cfg addr v s = .ok t) (a : Byte) :
    memRead cfg a t = if a = addr then some v else memRead cfg a s := by
  obtain ⟨-, rfl⟩ := memWrite_ok.mp e
  simp only [memRead, Memory.read_write h, BitVec.toNat_inj, eq_comm]

/-- Settles O42: the cells by read after write, the rest because only the store is written. -/
theorem loaderWrite : Obligations.LoaderWrite := by
  intro cfg addr v s hinv
  constructor
  · intro hw
    have hwrite : memWrite cfg addr v s = .ok _ := memWrite_ok.mpr ⟨hw, rfl⟩
    exact ⟨_, hwrite, memRead_memWrite hinv hwrite, fun _ => rfl, fun _ => rfl, rfl, hw, rfl⟩
  · intro hf
    have hwrite : memWrite cfg addr v s = .error _ := memWrite_error.mpr ⟨hf, rfl⟩
    simp only [serve, hwrite, replyOf]

/-! ## The load of a byte sequence -/

/-- The loader writes of a sequence are the write of its first byte, then those of the rest. -/
theorem writeBytes_cons_ok {cfg : Config} {addr : Nat} {b : Byte} {rest : List Byte} {s t : State} :
    writeBytes cfg addr (b :: rest) s = .ok t ↔
      ∃ u, memWrite cfg (BitVec.ofNat 8 addr) b s = .ok u ∧
        writeBytes cfg (addr + 1) rest u = .ok t := by
  simp only [writeBytes]
  cases memWrite cfg (BitVec.ofNat 8 addr) b s <;> simp

/-- On a writable store the loader writes of any sequence are accepted (R51). -/
theorem exists_writeBytes_ok (cfg : Config) (bytes : List Byte) (addr : Nat) {s : State}
    (hw : s.romPhase = .writable) : ∃ t, writeBytes cfg addr bytes s = .ok t := by
  induction bytes generalizing addr s with
  | nil => exact ⟨s, rfl⟩
  | cons b rest ih =>
    obtain ⟨u, hwrite, hu⟩ :
        ∃ u, memWrite cfg (BitVec.ofNat 8 addr) b s = .ok u ∧ u.romPhase = .writable :=
      ⟨_, memWrite_ok.mpr ⟨hw, rfl⟩, hw⟩
    obtain ⟨t, ht⟩ := ih (addr + 1) hu
    exact ⟨t, writeBytes_cons_ok.mpr ⟨u, hwrite, ht⟩⟩

/-- Read after the loader writes of a sequence that fits the store: the cells from `addr` on hold its
bytes, and every other cell is as before (R51). -/
theorem memRead_writeBytes {cfg : Config} {bytes : List Byte} {addr : Nat} {s t : State}
    (hinv : s.Inv cfg) (hfit : addr + bytes.length ≤ 256) (e : writeBytes cfg addr bytes s = .ok t)
    (a : Byte) :
    memRead cfg a t =
      if addr ≤ a.toNat then bytes[a.toNat - addr]?.or (memRead cfg a s) else memRead cfg a s := by
  induction bytes generalizing addr s with
  | nil => cases e; simp
  | cons b rest ih =>
    obtain ⟨u, hwrite, hrest⟩ := writeBytes_cons_ok.mp e
    have hfit' : addr + 1 + rest.length ≤ 256 := by rw [List.length_cons] at hfit; omega
    have hcell : a = BitVec.ofNat 8 addr ↔ a.toNat = addr := by
      rw [← BitVec.toNat_inj, BitVec.toNat_ofNat, Nat.mod_eq_of_lt (by omega)]
    rw [ih (memWrite_keeps_inv hinv hwrite) hfit' hrest, memRead_memWrite hinv hwrite]
    simp only [hcell]
    rcases Nat.lt_trichotomy a.toNat addr with hlt | heq | hgt
    · rw [if_neg (by omega), if_neg (by omega), if_neg (by omega)]
    · rw [if_neg (by omega), if_pos heq, if_pos (by omega), heq, Nat.sub_self]
      rfl
    · have hsucc : a.toNat - addr = a.toNat - (addr + 1) + 1 := by omega
      rw [if_pos (by omega), if_neg (by omega), if_pos (by omega), hsucc, List.getElem?_cons_succ]

/-- Settles O43: a load is the loader writes from cell 0 on, and these write only the store. -/
theorem programLoad : Obligations.ProgramLoad := by
  intro cfg bytes s hinv hw
  constructor
  · intro hlen
    obtain ⟨t, ht⟩ := exists_writeBytes_ok cfg bytes 0 hw
    have hread := memRead_writeBytes hinv (by omega) ht
    obtain ⟨⟨m, rfl⟩, -⟩ := writeBytes_ok ht
    refine ⟨{ s with rom := m }, ?_, fun a => ?_, fun _ => rfl, fun _ => rfl, rfl, hw, rfl⟩
    · simp only [serve, loadProgram, if_neg (Nat.not_lt.mpr hlen), ht, replyOf]
    · rw [hread a, if_pos (Nat.zero_le _), Nat.sub_zero]
      split
      next h => rw [List.getElem?_eq_getElem h, Option.some_or]
      next h => rw [List.getElem?_eq_none (Nat.not_lt.mp h), Option.none_or]
  · intro hlen
    simp only [serve, loadProgram, if_pos hlen, replyOf]

/-! ## The freeze and the frozen store -/

/-- Settles O51: the freeze writes the phase alone, and a frozen phase is as it was. -/
theorem freezeRequest : Obligations.FreezeRequest := fun _ s =>
  ⟨freeze s, rfl, freeze_romPhase s, fun _ => rfl, freeze_reg s, freeze_readPort s, freeze_pc s,
    freeze_draws s, freeze_of_frozen⟩

/-- An accepted load on a frozen store wrote nothing: it was empty. -/
theorem loadProgram_frozen {cfg : Config} {bytes : List Byte} {s t : State}
    (hf : s.romPhase = .frozen) (e : loadProgram cfg bytes s = .ok t) : t = s := by
  unfold loadProgram at e
  split at e
  · cases e
  · obtain ⟨-, hfrozen⟩ := writeBytes_ok e
    exact hfrozen hf

/-- No request changes a frozen store or its phase (R66). -/
theorem serve_frozen {cfg : Config} {r : Request} {s t : State} (hf : s.romPhase = .frozen)
    (e : (serve cfg r s).2 = some t) : t.rom = s.rom ∧ t.romPhase = s.romPhase := by
  have reply {x : Except UsageError State} (e : (replyOf s x).2 = some t)
      (keeps : x = .ok t → t.rom = s.rom ∧ t.romPhase = s.romPhase) :
      t.rom = s.rom ∧ t.romPhase = s.romPhase := by
    rcases replyOf_state.mp e with hok | ⟨-, rfl⟩
    · exact keeps hok
    · exact ⟨rfl, rfl⟩
  cases r with
  | memWrite addr v =>
    refine reply e fun hok => ?_
    obtain ⟨hw, -⟩ := memWrite_ok.mp hok
    cases hw.symm.trans hf
  | load bytes =>
    refine reply e fun hok => ?_
    cases loadProgram_frozen hf hok
    exact ⟨rfl, rfl⟩
  | freeze =>
    cases e
    exact ⟨freeze_rom s, (freeze_romPhase s).trans hf.symm⟩
  | inSet addr v =>
    refine reply e fun hok => ?_
    obtain ⟨-, rfl⟩ := inSet_ok.mp hok
    exact ⟨State.writePort_rom .., State.writePort_romPhase ..⟩
  | outGet addr =>
    simp only [serve] at e
    cases eo : outGet addr s <;> simp only [eo, Option.some.injEq] at e <;> exact e ▸ ⟨rfl, rfl⟩
  | step =>
    simp only [serve] at e
    cases es : stepUnder cfg s with
    | next u =>
      simp only [es, Option.some.injEq] at e
      obtain ⟨-, hstore⟩ := stepUnder_store es
      exact e ▸ hstore
    | fault f => simp [es] at e
    | refused f => simp only [es, Option.some.injEq] at e; exact e ▸ ⟨rfl, rfl⟩

/-- A sequence of requests is its first one, and if that leaves a state, the rest from there. -/
theorem serveAll_cons_state {cfg : Config} {r : Request} {rest : List Request} {s t : State} :
    (serveAll cfg (r :: rest) s).2 = some t ↔
      ∃ u, (serve cfg r s).2 = some u ∧ (serveAll cfg rest u).2 = some t := by
  simp only [serveAll]
  rcases serve cfg r s with ⟨reply, _ | u⟩ <;> simp

/-- What every request keeps, every sequence of requests keeps. -/
theorem serveAll_keeps {cfg : Config} {P : State → Prop}
    (keeps : ∀ r s t, P s → (serve cfg r s).2 = some t → P t) {requests : List Request}
    {s t : State} (hs : P s) (e : (serveAll cfg requests s).2 = some t) : P t := by
  induction requests generalizing s with
  | nil => cases e; exact hs
  | cons r rest ih =>
    obtain ⟨u, hserve, hrest⟩ := serveAll_cons_state.mp e
    exact ih (keeps r s u hs hserve) hrest

/-- The frozen program store with content `m`. -/
def State.FrozenAt (m : Memory) (s : State) : Prop := s.rom = m ∧ s.romPhase = .frozen

theorem serve_keeps_frozenAt {cfg : Config} {m : Memory} {r : Request} {s t : State}
    (h : s.FrozenAt m) (e : (serve cfg r s).2 = some t) : t.FrozenAt m := by
  obtain ⟨hrom, hf⟩ := h
  obtain ⟨hrom', hf'⟩ := serve_frozen hf e
  exact ⟨hrom'.trans hrom, hf'.trans hf⟩

/-- Settles O31: every request keeps a frozen store, so by induction every sequence of requests does. -/
theorem frozenStoreNeverChanges : Obligations.FrozenStoreNeverChanges := by
  refine fun cfg s => ⟨fun t h => ?_, fun requests t hf e => ?_⟩
  · obtain ⟨hf, -⟩ := stepUnder_store h
    exact hf
  · have hs : s.FrozenAt s.rom := ⟨rfl, hf⟩
    exact serveAll_keeps (P := State.FrozenAt s.rom) (fun _ _ _ => serve_keeps_frozenAt) hs e

end Sys2Proof.Machine
end

section
/-!
The encoding (R70 to R80). Two equations carry it: what the encoder answers for an instruction of either
length, and what the decoder answers on two bytes whose first has a given mnemonic's opcode.
-/

namespace Sys2Proof

open Sys2Proof.Claims

/-! ## Lengths and opcodes in the statements' terms -/

theorem mem_oneByte {m : Mnemonic} : m ∈ oneByte ↔ m.length = 1 := by cases m <;> decide

theorem opc_toNat_eq_hi {opc : OpcodeMap} {m : Mnemonic} {b : Byte} :
    (opc m).toNat = hi b ↔ opc m = hiNibble b := by
  rw [hi, ← hiNibble_toNat, BitVec.toNat_inj]

/-! ## What the encoder answers -/

theorem Instr.byte2_of_length_one {i : Instr} (l : i.mnemonic.length = 1) : i.byte2 = none := by
  have hsome := i.byte2_isSome
  simpa [l] using hsome

theorem Instr.byte2_of_length_two {i : Instr} (l : i.mnemonic.length = 2) :
    ∃ b2, i.byte2 = some b2 := by
  have hsome := i.byte2_isSome
  simpa [l, Option.isSome_iff_exists] using hsome

theorem encode_one {opc : OpcodeMap} {i : Instr} (h : i.byte2 = none) :
    encode opc i = [byteOf (opc i.mnemonic) i.nibble1] := by
  rw [encode, h]; rfl

theorem encode_two {opc : OpcodeMap} {i : Instr} {b2 : Byte} (h : i.byte2 = some b2) :
    encode opc i = [byteOf (opc i.mnemonic) i.nibble1, b2] := by
  rw [encode, h]; rfl

/-- Settles O35: the first byte carries the mnemonic, so the decoder reads the length that the encoder
wrote, and the bytes carry every operand. -/
theorem decodeEncode : Obligations.DecodeEncode := by
  intro cfg i rest hwf
  have hmnem : mnemonicOf cfg.opc (hiNibble (byteOf (cfg.opc i.mnemonic) i.nibble1)) =
      some i.mnemonic := by rw [hiNibble_byteOf, mnemonicOf_opc hwf]
  have hfields := i.build_fields cfg.opc
  rcases i.mnemonic.length_cases with l | l
  · have hnone := Instr.byte2_of_length_one l
    rw [hnone, Option.getD_none] at hfields
    rw [encode_one hnone, List.singleton_append, decode_one hmnem l, hfields]
  · obtain ⟨b2, hsome⟩ := Instr.byte2_of_length_two l
    rw [hsome, Option.getD_some] at hfields
    rw [encode_two hsome, List.cons_append, List.singleton_append, decode_two hmnem l, hfields]

/-! ## What the decoder answers on two bytes -/

/-- A one-byte format reads nothing of the byte after it (R70, R77). -/
theorem Mnemonic.build_of_length_one {m : Mnemonic} (l : m.length = 1) (b1 b2 b2' : Byte) :
    m.build b1 b2 = m.build b1 b2' := by
  cases m with
  | nop | inc | rolr | rnv => rfl
  | add | sub | and | or | nor | xor | bib | jmp | mov | ldi | inPort | outPort => cases l

theorem decode_of_mnemonicOf {opc : OpcodeMap} {b1 : Byte} {m : Mnemonic}
    (hm : mnemonicOf opc (hiNibble b1) = some m) (b2 : Byte) (rest : List Byte) :
    decode opc (b1 :: b2 :: rest) =
      .ok (m.build b1 b2, if m ∈ oneByte then b2 :: rest else rest) := by
  rcases m.length_cases with l | l
  · rw [decode_one hm l, if_pos (mem_oneByte.mpr l), m.build_of_length_one l]
  · have hnot : m ∉ oneByte := by simp [mem_oneByte, l]
    rw [decode_two hm l, if_neg hnot]

/-- The decoder inverted: the opcode fixes the mnemonic, and the mnemonic fixes the rest. -/
theorem decode_eq_ok {cfg : Config} (hwf : cfg.wellFormed = true) {b1 b2 : Byte}
    {rest after : List Byte} {i : Instr} :
    decode cfg.opc (b1 :: b2 :: rest) = .ok (i, after) ↔
      ∃ m, cfg.opc m = hiNibble b1 ∧ i = m.build b1 b2 ∧
        after = if m ∈ oneByte then b2 :: rest else rest := by
  constructor
  · intro h
    obtain ⟨m, hm⟩ := Config.opc_surjective hwf (hiNibble b1)
    rw [decode_of_mnemonicOf ((mnemonicOf_eq_some hwf).mpr hm)] at h
    cases h
    exact ⟨m, hm, rfl, rfl⟩
  · rintro ⟨m, hm, rfl, rfl⟩
    exact decode_of_mnemonicOf ((mnemonicOf_eq_some hwf).mpr hm) b2 rest

/-- Settles O37: the opcode assignment is a bijection, so the high nibble names one mnemonic. -/
theorem decoderIsTotal : Obligations.DecoderIsTotal := by
  intro cfg b1 hwf
  obtain ⟨m, hm⟩ := Config.opc_surjective hwf (hiNibble b1)
  refine ⟨m, opc_toNat_eq_hi.mpr hm, fun m' hm' => ?_, fun b2 rest => ?_⟩
  · exact Config.opc_injective hwf ((opc_toNat_eq_hi.mp hm').trans hm.symm)
  · exact ⟨m.build b1 b2, _, m.build_mnemonic b1 b2, (decode_eq_ok hwf).mpr ⟨m, hm, rfl, rfl⟩⟩

/-- Settles O38: the mnemonic the decoder found is the decoded instruction's own. -/
theorem lengthByOpcode : Obligations.LengthByOpcode := by
  intro cfg b1 b2 rest after i hwf h
  obtain ⟨m, hm, rfl, rfl⟩ := (decode_eq_ok hwf).mp h
  rw [Mnemonic.build_mnemonic]
  exact ⟨(opc_toNat_eq_hi.mpr hm).symm, rfl⟩

/-! ## The bytes of a decoded instruction -/

theorem byteOf_hiNibble_zero (b : Byte) : byteOf (hiNibble b) 0 = b &&& 0xF0 := by
  revert b; decide

theorem byte_and_0xFF (b : Byte) : b &&& 0xFF = b := BitVec.and_allOnes

/-- The first byte is written back but for a nibble that the format ignores (R72, R77). -/
theorem byteOf_nibble1_build (m : Mnemonic) (b1 b2 : Byte) :
    byteOf (hiNibble b1) (m.build b1 b2).nibble1 = b1 &&& mask1 m := by
  cases m with
  | nop | jmp => exact byteOf_hiNibble_zero b1
  | bib =>
    simp only [Mnemonic.build, Instr.nibble1, mask1, condCode_condOf, byteOf_nibbles, byte_and_0xFF]
  | add | sub | and | or | nor | xor | inc | rolr | rnv | mov | ldi | inPort | outPort =>
    exact (byteOf_nibbles b1).trans (byte_and_0xFF b1).symm

/-- The second byte is written back but for a nibble that the format ignores (R72, R77). -/
theorem byte2_build {m : Mnemonic} (l : m.length = 2) (b1 b2 : Byte) :
    (m.build b1 b2).byte2 = some (b2 &&& mask2 m) := by
  cases m with
  | nop | inc | rolr | rnv => cases l
  | mov | inPort | outPort => exact congrArg some (byteOf_hiNibble_zero b2)
  | bib | jmp | ldi => exact congrArg some (byte_and_0xFF b2).symm
  | add | sub | and | or | nor | xor =>
    exact congrArg some ((byteOf_nibbles b2).trans (byte_and_0xFF b2).symm)

/-- Settles O36: each byte the decoder read is written back with its mask. -/
theorem encodeDecodeClearsIgnored : Obligations.EncodeDecodeClearsIgnored := by
  intro cfg i b1 b2 rest after hwf h
  obtain ⟨m, hm, rfl, rfl⟩ := (decode_eq_ok hwf).mp h
  have hmnem := m.build_mnemonic b1 b2
  have hbyte1 : byteOf (cfg.opc (m.build b1 b2).mnemonic) (m.build b1 b2).nibble1 =
      b1 &&& mask1 (m.build b1 b2).mnemonic := by
    rw [hmnem, hm, byteOf_nibble1_build]
  constructor
  · intro hone
    have hnone := Instr.byte2_of_length_one (mem_oneByte.mp hone)
    rw [hmnem] at hone
    exact ⟨if_pos hone, by rw [encode_one hnone, hbyte1]⟩
  · intro htwo
    rw [hmnem] at htwo
    have l : m.length = 2 := m.length_cases.resolve_left (mt mem_oneByte.mpr htwo)
    exact ⟨if_neg htwo, by rw [encode_two (byte2_build l b1 b2), hbyte1, hmnem]⟩

/-! ## Sample words -/

/-- Settles O39: each word is decoded by evaluation. -/
theorem sampleWords : Obligations.SampleWords := by
  unfold Obligations.SampleWords
  decide

end Sys2Proof
end

section
/-!
`nop` (R100): its meaning returns the state it was given, and opcode 0 is its own in every assignment (R5).
-/

namespace Sys2Proof.Machine

open Sys2Proof.Claims

/-- A one-byte instruction is decoded by the opcode in the high nibble of its first byte (R70, R76). -/
theorem decode_of_hi_of_length_one {cfg : Config} (hwf : cfg.wellFormed = true) {m : Mnemonic}
    (l : m.length = 1) {b1 : Byte} (h : hi b1 = (cfg.opc m).toNat) (rest : List Byte) :
    decode cfg.opc (b1 :: rest) = .ok (m.build b1 0, rest) :=
  decode_one ((mnemonicOf_eq_some hwf).mpr (opc_toNat_eq_hi.mp h.symm)) l

theorem execUnder_nop (cfg : Config) (s : State) : execUnder cfg .nop s = .next s := rfl

/-- Settles O1: no first byte with opcode 0 means anything but `nop`, since a well-formed assignment gives
`nop` opcode 0, and the operand nibble is not a field of its format. -/
theorem nopResult : Obligations.NopResult := by
  refine fun s => ⟨?_, fun cfg hwf => ⟨execUnder_nop cfg s, fun b1 rest h0 => ?_⟩⟩
  · rw [exec_eq_execUnder, execUnder_nop]
  · have hopc : hi b1 = (cfg.opc .nop).toNat := by rw [h0, Config.opc_nop hwf]; rfl
    exact decode_of_hi_of_length_one hwf rfl hopc rest

end Sys2Proof.Machine
end

section
/-!
The binary ALU instructions (R110 to R118). They share what a statement about one asks for: the state that
the two writes leave (`aluPost_aluWrite`), the bytes that decode to it (`decode_registerTriple`), and the
passage from every configuration to the reference configuration (`binaryResult`). What is left for each
instruction is its result and its flag update.
-/

namespace Sys2Proof.Machine

open Sys2Proof.Claims

/-! ## The two writes in the statements' terms -/

/-- `aluWrite_spec` with the bits by division, the frame by cells and the order from the configuration. -/
theorem aluPost_aluWrite {update : State → State} {upd : BitPos → Bool → Bool}
    (h : FlagUpdate update upd) (cfg : Config) (m : Mnemonic) (v : Byte) (d : Reg) (s : State) :
    AluPost cfg m v upd d s (aluWrite (cfg.aluOrder m) update d v s) := by
  obtain ⟨hreg, hpc, hrom, hphase, hport, hdraws, hother, hflagsFirst, hresultFirst⟩ :=
    aluWrite_spec h (cfg.aluOrder m) d v s
  simp only [← bit_eq_getLsbD] at hother hresultFirst
  refine ⟨hother, hflagsFirst, hresultFirst, fun r hr => ?_, hpc, fun p => congrArg (·[p]) hport,
    ⟨hphase, fun a => by rw [hrom]⟩, hdraws⟩
  obtain ⟨hd, h15⟩ : r ≠ d ∧ r ≠ 15 := by simpa using hr
  exact hreg r hd h15

/-- With the flags written first, the destination holds the bare result, cell 15 included (R118). -/
theorem reg_aluWrite_flagsFirst (update : State → State) (d : Reg) (v : Byte) (s : State) :
    (aluWrite .flagsFirst update d v s).reg d = v :=
  State.reg_setReg_same ..

/-! ## The decoding of a register triple -/

/-- A two-byte instruction is decoded by the opcode in the high nibble of its first byte (R70, R76). -/
theorem decode_of_hi_of_length_two {cfg : Config} (hwf : cfg.wellFormed = true) {m : Mnemonic}
    (l : m.length = 2) {b1 : Byte} (h : hi b1 = (cfg.opc m).toNat) (b2 : Byte) (rest : List Byte) :
    decode cfg.opc (b1 :: b2 :: rest) = .ok (m.build b1 b2, rest) :=
  decode_two ((mnemonicOf_eq_some hwf).mpr (opc_toNat_eq_hi.mp h.symm)) l

theorem cellOf_hiNibble {b : Byte} {r : Fin 16} (h : hi b = r.val) : cellOf (hiNibble b) = r :=
  Fin.ext ((hiNibble_toNat b).trans h)

theorem cellOf_loNibble {b : Byte} {r : Fin 16} (h : lo b = r.val) : cellOf (loNibble b) = r :=
  Fin.ext ((loNibble_toNat b).trans h)

/-- The mnemonic `m` makes of two bytes the instruction `mk` of the three registers that their nibbles
name (R72, R74). -/
def ReadsRegisterTriple (m : Mnemonic) (mk : Reg → Reg → Reg → Instr) : Prop :=
  m.length = 2 ∧ ∀ b1 b2, m.build b1 b2 =
    mk (cellOf (loNibble b1)) (cellOf (hiNibble b2)) (cellOf (loNibble b2))

theorem decode_registerTriple {cfg : Config} (hwf : cfg.wellFormed = true) {m : Mnemonic}
    {mk : Reg → Reg → Reg → Instr} (hm : ReadsRegisterTriple m mk) {d s1 s2 : Reg} {b1 b2 : Byte}
    (hopc : hi b1 = (cfg.opc m).toNat) (hd : lo b1 = d.val) (h1 : hi b2 = s1.val)
    (h2 : lo b2 = s2.val) (rest : List Byte) :
    decode cfg.opc (b1 :: b2 :: rest) = .ok (mk d s1 s2, rest) := by
  obtain ⟨hlength, hbuild⟩ := hm
  rw [decode_of_hi_of_length_two hwf hlength hopc, hbuild, cellOf_loNibble hd, cellOf_hiNibble h1,
    cellOf_loNibble h2]

/-! ## The three parts of a statement -/

/-- What holds after an instruction in every configuration holds after `exec` in the reference one (R9). -/
theorem exec_post {i : Instr} {s : State} {post : Config → State → Prop}
    (h : ∀ cfg, ∃ t, execUnder cfg i s = .next t ∧ post cfg t) :
    ∃ t, exec i s = .next t ∧ post reference t := by
  rw [exec_eq_execUnder]
  exact h reference

/-- A statement about a binary ALU instruction, from what its meaning leaves in every configuration. -/
theorem binaryResult {m : Mnemonic} {mk : Reg → Reg → Reg → Instr} {d s1 s2 : Reg} {s : State}
    {post : Config → State → Prop} (hm : ReadsRegisterTriple m mk)
    (h : ∀ cfg, ∃ t, execUnder cfg (mk d s1 s2) s = .next t ∧ post cfg t) :
    (∃ t, exec (mk d s1 s2) s = .next t ∧ post reference t) ∧
      ∀ cfg : Config, cfg.wellFormed = true →
        (∃ t, execUnder cfg (mk d s1 s2) s = .next t ∧ post cfg t) ∧
        ∀ (b1 b2 : Byte) (rest : List Byte), hi b1 = (cfg.opc m).toNat → lo b1 = d.val →
          hi b2 = s1.val → lo b2 = s2.val →
          decode cfg.opc (b1 :: b2 :: rest) = .ok (mk d s1 s2, rest) :=
  ⟨exec_post h, fun cfg hwf =>
    ⟨h cfg, fun _ _ rest hopc hd h1 h2 => decode_registerTriple hwf hm hopc hd h1 h2 rest⟩⟩

/-! ## The sum and the difference -/

/-- The sum's flag update sets carry alone, on a raw sum above 255 (R111). -/
theorem execUnder_add_post (cfg : Config) (d s1 s2 : Reg) (s : State) :
    ∃ t, execUnder cfg (.add d s1 s2) s = .next t ∧ AddPost cfg d s1 s2 s t :=
  ⟨_, rfl, _, BitVec.toNat_ofNat .., aluPost_aluWrite (flagUpdate_sum cfg _) cfg .add _ d s⟩

/-- Settles O2: the raw sum is stored modulo 256 and tested unreduced. -/
theorem addResult : Obligations.AddResult := fun d s1 s2 s =>
  binaryResult ⟨rfl, fun _ _ => rfl⟩ fun cfg => execUnder_add_post cfg d s1 s2 s

/-- The byte of an integer, as a number, is the integer modulo 256. -/
theorem byte_toNat_ofInt (raw : Int) : ((BitVec.ofInt 8 raw).toNat : Int) = raw % 256 := by
  rw [BitVec.toNat_ofInt, Int.toNat_of_nonneg (Int.emod_nonneg _ (by decide))]
  rfl

/-- The difference's flag update sets sign on a negative raw difference and zero on 0 (R112). -/
theorem execUnder_sub_post (cfg : Config) (d s1 s2 : Reg) (s : State) :
    ∃ t, execUnder cfg (.sub d s1 s2) s = .next t ∧ SubPost cfg d s1 s2 s t :=
  ⟨_, rfl, _, byte_toNat_ofInt _, aluPost_aluWrite (flagUpdate_difference cfg _) cfg .sub _ d s⟩

/-- Settles O3: the raw difference is stored modulo 256 and tested unreduced. -/
theorem subResult : Obligations.SubResult := fun d s1 s2 s =>
  binaryResult ⟨rfl, fun _ _ => rfl⟩ fun cfg => execUnder_sub_post cfg d s1 s2 s

/-! ## The bitwise instructions -/

theorem bit_and (a b : Byte) (k : BitPos) : bit (a &&& b) k = (bit a k && bit b k) := by
  simp only [bit_eq_getLsbD, BitVec.getLsbD_and]

theorem bit_or (a b : Byte) (k : BitPos) : bit (a ||| b) k = (bit a k || bit b k) := by
  simp only [bit_eq_getLsbD, BitVec.getLsbD_or]

theorem bit_xor (a b : Byte) (k : BitPos) : bit (a ^^^ b) k = Bool.xor (bit a k) (bit b k) := by
  simp only [bit_eq_getLsbD, BitVec.getLsbD_xor]

theorem bit_not (a : Byte) (k : BitPos) : bit (~~~a) k = !bit a k := by
  simp only [bit_eq_getLsbD, BitVec.getLsbD_not, k.isLt, decide_true, Bool.true_and]

theorem bit_nor (a b : Byte) (k : BitPos) : bit (~~~(a ||| b)) k = !(bit a k || bit b k) := by
  rw [bit_not, bit_or]

/-- A flag update takes each bit as any equal function does. -/
theorem FlagUpdate.congr {update : State → State} {upd upd' : BitPos → Bool → Bool}
    (h : FlagUpdate update upd) (e : ∀ k b, upd k b = upd' k b) : FlagUpdate update upd' :=
  ⟨h.frame, fun s k => (h.bits s k).trans (e k _)⟩

/-- The zero test of a bitwise instruction in the statements' terms: made if `tests`, on the number. -/
def ZeroTest (cfg : Config) (tests : Bool) (v : Byte) (update : State → State) : Prop :=
  FlagUpdate update (sets cfg.flagZ (tests = true ∧ v.toNat = 0))

theorem zeroTest_logicFlags (cfg : Config) (v : Byte) : ZeroTest cfg true v (logicFlags cfg v) :=
  (flagUpdate_logic cfg v).congr fun k b => by simp [sets, BitVec.toNat_eq]

theorem zeroTest_norFlags (cfg : Config) (v : Byte) :
    ZeroTest cfg (cfg.norZTest == .masked) v (norFlags cfg v) :=
  (flagUpdate_nor cfg v).congr fun k b => by simp [sets, BitVec.toNat_eq]

/-- What a bitwise instruction leaves, from the bits of its result and its zero test. -/
theorem logicPost_aluWrite {cfg : Config} {op : Bool → Bool → Bool} {tests : Bool} {v : Byte}
    {s1 s2 : Reg} {s : State} {update : State → State}
    (hbits : ∀ k, bit v k = op (bit (s.reg s1) k) (bit (s.reg s2) k))
    (hzero : ZeroTest cfg tests v update) (m : Mnemonic) (d : Reg) :
    LogicPost cfg m op tests d s1 s2 s (aluWrite (cfg.aluOrder m) update d v s) :=
  ⟨v, hbits, aluPost_aluWrite hzero cfg m v d s⟩

/-- Settles O4: the bits of a conjunction, and the zero test of its result. -/
theorem andResult : Obligations.AndResult := fun d _ _ _ =>
  binaryResult ⟨rfl, fun _ _ => rfl⟩ fun cfg =>
    ⟨_, rfl, logicPost_aluWrite (bit_and _ _) (zeroTest_logicFlags cfg _) .and d⟩

/-- Settles O5: the bits of a disjunction, and the zero test of its result. -/
theorem orResult : Obligations.OrResult := fun d _ _ _ =>
  binaryResult ⟨rfl, fun _ _ => rfl⟩ fun cfg =>
    ⟨_, rfl, logicPost_aluWrite (bit_or _ _) (zeroTest_logicFlags cfg _) .or d⟩

/-- Settles O6: the bits of a negated disjunction, and the zero test that `NOR_Z_TEST` asks for. -/
theorem norResult : Obligations.NorResult := fun d _ _ _ =>
  binaryResult ⟨rfl, fun _ _ => rfl⟩ fun cfg =>
    ⟨_, rfl, logicPost_aluWrite (bit_nor _ _) (zeroTest_norFlags cfg _) .nor d⟩

/-- Settles O7: the bits of an exclusive or, and the zero test of its result. -/
theorem xorResult : Obligations.XorResult := fun d _ _ _ =>
  binaryResult ⟨rfl, fun _ _ => rfl⟩ fun cfg =>
    ⟨_, rfl, logicPost_aluWrite (bit_xor _ _) (zeroTest_logicFlags cfg _) .xor d⟩

/-! ## Destination 15 in the reference configuration -/

/-- Bit 7 of the rotated byte is the bit rotated out, and every other bit is the next higher one (R122). -/
theorem bit_rotateByte (a : Byte) (k : BitPos) :
    bit (rotateByte a) k =
      if k.val = 7 then bit a 0 else decide (a.toNat / 2 ^ (k.val + 1) % 2 = 1) := by
  have hnext : decide (a.toNat / 2 ^ (k.val + 1) % 2 = 1) = a.getLsbD (k.val + 1) :=
    Nat.testBit_eq_decide_div_mod_eq.symm
  rw [hnext, bit_eq_getLsbD, bit_eq_getLsbD, rotateByte, BitVec.getLsbD_or,
    BitVec.getLsbD_ushiftRight, BitVec.getLsbD_shiftLeft]
  split
  next h7 => simp [h7]
  next h7 =>
    have hlt : k.val < 7 := by omega
    simp [hlt, Nat.add_comm]

/-- `rolr` writes the rotated byte and then forces carry to the bit rotated out (R118, R122). -/
theorem exec_rolr_flags (s : State) : ∃ t, exec (.rolr 15) s = .next t ∧ ∀ k : BitPos,
    bit (t.reg 15) k = if k.val = 1 then bit (s.reg 15) 0 else bit (rotateByte (s.reg 15)) k := by
  refine ⟨_, rfl, fun k => ?_⟩
  have hcarry := flagUpdate_rotate reference ((s.reg 15).getLsbD 0)
  obtain ⟨-, -, hbits, -⟩ := aluPost_aluWrite hcarry reference .rolr (rotateByte (s.reg 15)) 15 s
  have hpos : k = reference.flagC ↔ k.val = 1 := Fin.ext_iff
  rw [← if_congr hpos rfl rfl, bit_eq_getLsbD (s.reg 15) 0]
  exact hbits rfl rfl k

/-- Settles O17: at the reference order the result is the last write of every instruction but `rolr`, and
`rolr` forces carry after it. -/
theorem flagsAsDestination : Obligations.FlagsAsDestination := by
  intro s1 s2 s
  refine ⟨⟨_, rfl, ?sum⟩, ⟨_, rfl, ?difference⟩, ⟨_, rfl, reg_aluWrite_flagsFirst ..⟩,
    ⟨_, rfl, reg_aluWrite_flagsFirst ..⟩, ⟨_, rfl, reg_aluWrite_flagsFirst ..⟩,
    ⟨_, rfl, reg_aluWrite_flagsFirst ..⟩, ⟨_, rfl, ?increment⟩, ?rotate⟩
  case sum | increment =>
    exact (congrArg BitVec.toNat (reg_aluWrite_flagsFirst ..)).trans (BitVec.toNat_ofNat ..)
  case difference =>
    exact (congrArg (fun v : Byte => (v.toNat : Int)) (reg_aluWrite_flagsFirst ..)).trans
      (byte_toNat_ofInt _)
  case rotate =>
    obtain ⟨t, ht, hbits⟩ := exec_rolr_flags s
    exact ⟨t, ht, fun k => by rw [hbits k, bit_rotateByte]⟩

end Sys2Proof.Machine
end

section
/-!
The unary ALU instructions (R120 to R123). As for the binary ones, a statement about one is assembled from
the bytes that decode to it (`decode_register`) and from what its meaning leaves in every configuration
(`unaryUnder`). The rotation is also read bit by bit, as a step around the eight positions, for the eight
rotates that restore a register.
-/

namespace Sys2Proof.Machine

open Sys2Proof.Claims

/-! ## The decoding of one register, and the parts of a statement -/

/-- The mnemonic `m` makes of its one byte the instruction `mk` of the register that the low nibble
names (R72, R74, R120). -/
def ReadsRegister (m : Mnemonic) (mk : Reg → Instr) : Prop :=
  m.length = 1 ∧ ∀ b1 b2, m.build b1 b2 = mk (cellOf (loNibble b1))

theorem decode_register {cfg : Config} (hwf : cfg.wellFormed = true) {m : Mnemonic}
    {mk : Reg → Instr} (hm : ReadsRegister m mk) {d : Reg} {b1 : Byte}
    (hopc : hi b1 = (cfg.opc m).toNat) (hd : lo b1 = d.val) (rest : List Byte) :
    decode cfg.opc (b1 :: rest) = .ok (mk d, rest) := by
  obtain ⟨hlength, hbuild⟩ := hm
  rw [decode_of_hi_of_length_one hwf hlength hopc, hbuild, cellOf_loNibble hd]

/-- What a statement about a unary instruction says of a well-formed configuration, from what the
instruction's meaning leaves in it. -/
theorem unaryUnder {m : Mnemonic} {mk : Reg → Instr} {d : Reg} {s : State}
    {post : Config → State → Prop} (hm : ReadsRegister m mk)
    (h : ∀ cfg, ∃ t, execUnder cfg (mk d) s = .next t ∧ post cfg t) :
    ∀ cfg : Config, cfg.wellFormed = true →
      (∃ t, execUnder cfg (mk d) s = .next t ∧ post cfg t) ∧
      ∀ (b1 : Byte) (rest : List Byte), hi b1 = (cfg.opc m).toNat → lo b1 = d.val →
        decode cfg.opc (b1 :: rest) = .ok (mk d, rest) :=
  fun cfg hwf => ⟨h cfg, fun _ rest hopc hd => decode_register hwf hm hopc hd rest⟩

/-! ## The increment -/

/-- The increment's flag update sets carry alone, on a raw sum above 255 (R121). -/
theorem execUnder_inc_post (cfg : Config) (d : Reg) (s : State) :
    ∃ t, execUnder cfg (.inc d) s = .next t ∧ IncPost cfg d s t :=
  ⟨_, rfl, _, BitVec.toNat_ofNat .., aluPost_aluWrite (flagUpdate_sum cfg _) cfg .inc _ d s⟩

/-- Settles O8: the raw sum is stored modulo 256 and tested unreduced. -/
theorem incResult : Obligations.IncResult := fun d s =>
  have hpost : ∀ cfg, ∃ t, execUnder cfg (.inc d) s = .next t ∧ IncPost cfg d s t :=
    fun cfg => execUnder_inc_post cfg d s
  ⟨exec_post hpost, unaryUnder ⟨rfl, fun _ _ => rfl⟩ hpost⟩

/-! ## The rotation -/

/-- The byte shifted right lies below 128, so the bit rotated out is added above it (R122). -/
theorem rotateByte_toNat (a : Byte) :
    (rotateByte a).toNat = a.toNat / 2 + 128 * (a.toNat % 2) := by
  have hlow : a.toNat / 2 < 2 ^ 7 := by have := a.isLt; omega
  have hhigh : (a <<< 7).toNat = 2 ^ 7 * (a.toNat % 2) := by
    rw [BitVec.toNat_shiftLeft, Nat.shiftLeft_eq]; omega
  have hshift : (a >>> 1).toNat = a.toNat / 2 := by
    rw [BitVec.toNat_ushiftRight, Nat.shiftRight_eq_div_pow, pow_one]
  calc (rotateByte a).toNat
      = 2 ^ 7 * (a.toNat % 2) ||| a.toNat / 2 := by
        rw [rotateByte, BitVec.toNat_or, hshift, hhigh, Nat.or_comm]
    _ = 2 ^ 7 * (a.toNat % 2) + a.toNat / 2 := (Nat.two_pow_add_eq_or_of_lt hlow _).symm
    _ = a.toNat / 2 + 128 * (a.toNat % 2) := Nat.add_comm ..

/-- The carry of a rotation in the statements' terms: the parity of the byte (R122). -/
theorem flagUpdate_rotate_parity (cfg : Config) (a : Byte) :
    FlagUpdate (rotateFlags cfg (a.getLsbD 0)) fun k b =>
      if k = cfg.flagC then decide (a.toNat % 2 = 1) else b :=
  have hparity : a.getLsbD 0 = decide (a.toNat % 2 = 1) := Nat.testBit_zero a.toNat
  hparity ▸ flagUpdate_rotate cfg (a.getLsbD 0)

/-- The rotation's flag update writes carry alone, with the bit rotated out (R122). -/
theorem execUnder_rolr_post (cfg : Config) (d : Reg) (s : State) :
    ∃ t, execUnder cfg (.rolr d) s = .next t ∧ RolrPost cfg d s t :=
  ⟨_, rfl, _, rotateByte_toNat (s.reg d),
    aluPost_aluWrite (flagUpdate_rotate_parity cfg _) cfg .rolr _ d s⟩

/-- Settles O9: the rotated byte as a number, and carry as the parity of the byte rotated. -/
theorem rolrResult : Obligations.RolrResult := fun d s =>
  have hpost : ∀ cfg, ∃ t, execUnder cfg (.rolr d) s = .next t ∧ RolrPost cfg d s t :=
    fun cfg => execUnder_rolr_post cfg d s
  ⟨exec_post hpost, unaryUnder ⟨rfl, fun _ _ => rfl⟩ hpost⟩

/-! ## The draw -/

theorem onlyRegs_setReg (cfg : Config) (v : Byte) (d : Reg) (s : State) :
    OnlyRegs cfg [d] s (s.setReg d v) :=
  ⟨fun _ hr => State.reg_setReg_other s v (List.ne_of_not_mem_cons hr), rfl, fun _ => rfl,
    ⟨rfl, fun _ => rfl⟩, rfl⟩

/-- A register write is all that an instruction without a flag update leaves behind. -/
theorem loadPost_setReg (cfg : Config) (v : Byte) (d : Reg) (s : State) :
    LoadPost cfg v d s (s.setReg d v) :=
  ⟨State.reg_setReg_same s d v, onlyRegs_setReg cfg v d s⟩

theorem execUnder_rnv (cfg : Config) (d : Reg) (s : State) :
    execUnder cfg (.rnv d) s =
      .next ((storeDraw (Config.drawByte s.draws) d s).atDraws (s.draws + 1)) := rfl

/-- A register write followed by the counter's rise is what a draw of the written byte leaves (R123). -/
theorem drawPost_atDraws {cfg : Config} {v : Byte} {d : Reg} {s t : State}
    (h : LoadPost cfg v d s t) : DrawPost cfg v d s (t.atDraws (s.draws + 1)) := by
  obtain ⟨hd, hother, hpc, hports, hstore, -⟩ := h
  exact ⟨hd, fun r hr => hother r (mt List.mem_singleton.mp hr), hpc, hports, hstore, rfl⟩

theorem execUnder_rnv_post (cfg : Config) (d : Reg) (s : State) :
    ∃ t, execUnder cfg (.rnv d) s = .next t ∧ DrawPost cfg (Config.drawByte s.draws) d s t :=
  ⟨_, execUnder_rnv cfg d s, drawPost_atDraws (loadPost_setReg cfg _ d s)⟩

/-- Settles O10: a draw is a register write and one more draw counted, whatever the byte is. -/
theorem rnvResult : Obligations.RnvResult := by
  refine fun d s => ⟨⟨_, ?_, drawPost_atDraws (loadPost_setReg reference _ d s), rfl⟩,
    fun v => loadPost_setReg reference v d s,
    unaryUnder ⟨rfl, fun _ _ => rfl⟩ fun cfg => execUnder_rnv_post cfg d s⟩
  exact (exec_eq_execUnder (.rnv d) s).trans (execUnder_rnv reference d s)

/-! ## Eight rotations -/

/-- Every bit of the rotated byte is the next one of the byte, around the eight positions. -/
theorem bit_rotateByte_succ (a : Byte) (k : BitPos) : bit (rotateByte a) k = bit a (k + 1) := by
  rw [bit_rotateByte]
  split
  next h7 =>
    have hlast : k = 7 := Fin.ext h7
    rw [hlast]; rfl
  next h7 =>
    have hnext : (k + 1).val = k.val + 1 := Fin.val_add_one_of_lt' (by omega)
    rw [bit, hnext]

theorem bit_iterate_rotateByte (n : Nat) (a : Byte) (k : BitPos) :
    bit (rotateByte^[n] a) k = bit a (k + Fin.ofNat 8 n) := by
  induction n generalizing a with
  | zero => simp
  | succ n ih =>
    have hpos : k + Fin.ofNat 8 n + 1 = k + Fin.ofNat 8 (n + 1) := by
      ext
      simp only [Fin.val_add, Fin.val_ofNat, Fin.val_one]
      omega
    rw [Function.iterate_succ_apply, ih, bit_rotateByte_succ, hpos]

theorem iterate_rotateByte_eight (a : Byte) : rotateByte^[8] a = a := by
  refine BitVec.eq_of_getLsbD_eq fun k hk => ?_
  have hbit : bit (rotateByte^[8] a) ⟨k, hk⟩ = bit a ⟨k, hk⟩ :=
    (bit_iterate_rotateByte 8 a ⟨k, hk⟩).trans (congrArg (bit a) (add_zero _))
  rwa [bit_eq_getLsbD, bit_eq_getLsbD] at hbit

/-- An instruction that applies `f` to a register applies it `n` times when it is run `n` times. -/
theorem execTimes_reg {i : Instr} {d : Reg} {f : Byte → Byte}
    (h : ∀ s, ∃ t, exec i s = .next t ∧ t.reg d = f (s.reg d)) (n : Nat) (s : State) :
    ∃ t, execTimes i n s = .next t ∧ t.reg d = f^[n] (s.reg d) := by
  induction n generalizing s with
  | zero => exact ⟨s, rfl, rfl⟩
  | succ n ih =>
    obtain ⟨u, hu, hreg⟩ := h s
    obtain ⟨t, ht, htimes⟩ := ih u
    refine ⟨t, ?_, ?_⟩
    · rw [execTimes, hu]; exact ht
    · rw [htimes, hreg, Function.iterate_succ_apply]

/-- With another destination than the flags register, carry is not forced into the rotated byte. -/
theorem exec_rolr_reg {d : Reg} (hd : d ≠ 15) (s : State) :
    ∃ t, exec (.rolr d) s = .next t ∧ t.reg d = rotateByte (s.reg d) := by
  have hcarry := flagUpdate_rotate reference ((s.reg d).getLsbD 0)
  obtain ⟨hother, -⟩ := aluPost_aluWrite hcarry reference .rolr (rotateByte (s.reg d)) d s
  exact ⟨_, rfl, (hother hd).1⟩

/-- Settles O18: each rotation moves every bit one position on, and there are eight positions. -/
theorem eightRotatesRestore : Obligations.EightRotatesRestore := by
  intro d s hd
  obtain ⟨t, ht, hreg⟩ := execTimes_reg (exec_rolr_reg hd) 8 s
  exact ⟨t, ht, by rw [hreg, iterate_rotateByte_eight]⟩

end Sys2Proof.Machine
end

section
/-!
The control transfers `bib` and `jmp` (R130, R131): the bytes that decode to each, the bits of a condition
selector, and the program counter each leaves in every configuration.
-/

namespace Sys2Proof.Machine

open Sys2Proof.Claims

/-! ## The conditional branch -/

/-- There are two condition sources, so being the flags register tells them apart. -/
theorem condSource_eq_of_flags_iff {c c' : CondSource} (h : c = .flags ↔ c' = .flags) : c = c' := by
  cases c with
  | flags => exact (h.mp rfl).symm
  | reg0 =>
    cases c' with
    | reg0 => rfl
    | flags => exact h.mpr rfl

/-- The register tested and the bit tested fix the selector that the operand nibble codes (R74, R130). -/
theorem condOf_loNibble {b : Byte} {n : CondSel} (hsource : n.source = .flags ↔ 8 ≤ lo b)
    (hbit : n.bit.val = lo b % 8) : condOf (loNibble b) = n := by
  have hflags : (condOf (loNibble b)).source = .flags ↔ n.source = .flags := by
    rw [condOf_source, loNibble_toNat, hsource, lo]
  have hpos : (condOf (loNibble b)).bit = n.bit :=
    Fin.ext (by rw [condOf_bit, loNibble_toNat, hbit, lo])
  have hsame : (condOf (loNibble b)).source = n.source := condSource_eq_of_flags_iff hflags
  exact congrArg₂ CondSel.mk hsame hpos

/-- A branch writes the program counter and nothing else, taken or not (R130, R132). -/
theorem execUnder_bib_pc (cfg : Config) (n : CondSel) (tgt : Byte) (s : State) :
    execUnder cfg (.bib n tgt) s = .next { s with pc := if selected n s then tgt else s.pc } := by
  rw [execUnder_bib]
  cases selected n s with
  | true => rfl
  | false => rfl

/-- Settles O11: the selector's source and bit are those of the operand nibble, and the selected bit
decides between the target and the program counter past the second byte. -/
theorem bibResult : Obligations.BibResult := by
  intro n tgt s
  refine ⟨?_, fun cfg hwf => ⟨execUnder_bib_pc cfg n tgt s, fun b1 rest hopc hsource hbit => ?_⟩⟩
  · rw [exec_eq_execUnder, execUnder_bib_pc]
  · rw [decode_of_hi_of_length_two hwf rfl hopc, Mnemonic.build, condOf_loNibble hsource hbit]

/-! ## The jump -/

/-- The one jump that faults (R131, R181; D3, log 3). -/
theorem execUnder_jmp_fault {cfg : Config} {tgt : Byte} (hadjust : cfg.jmpAdjust = 1) (htgt : tgt = 0)
    (s : State) : execUnder cfg (.jmp tgt) s = .fault .jumpTargetUnderflow :=
  if_pos ⟨hadjust, htgt⟩

/-- A target not below `JMP_ADJUST` is not the one that faults. -/
theorem jmpTarget_defined {adjust : Fin 2} {tgt : Byte} (h : adjust.val ≤ tgt.toNat) :
    ¬(adjust = 1 ∧ tgt = 0) := by
  rintro ⟨rfl, rfl⟩
  exact absurd h (by decide)

/-- A jump to a target not below `JMP_ADJUST` completes at the target less `JMP_ADJUST`. -/
theorem execUnder_jmp_pc {cfg : Config} {tgt : Byte} (h : cfg.jmpAdjust.val ≤ tgt.toNat) (s : State) :
    ∃ u : Byte, u.toNat = tgt.toNat - cfg.jmpAdjust.val ∧
      execUnder cfg (.jmp tgt) s = .next { s with pc := u } :=
  have hdefined := jmpTarget_defined h
  ⟨_, Nat.eq_sub_of_add_eq (jmpTarget_toNat hdefined), execUnder_jmp_next.mpr ⟨hdefined, rfl⟩⟩

/-- Settles O12: the adjusted target exists but for target 0 under `JMP_ADJUST = 1`, and the decoder
reads nothing of the operand nibble. -/
theorem jmpResult : Obligations.JmpResult := by
  intro tgt s
  refine ⟨fun hle => ?_, fun cfg hwf => ⟨fun hadjust htgt => ?_, fun hle => ?_, fun b1 rest hopc => ?_⟩⟩
  · rw [exec_eq_execUnder]
    exact execUnder_jmp_pc hle s
  · exact execUnder_jmp_fault hadjust htgt s
  · exact execUnder_jmp_pc hle s
  · exact decode_of_hi_of_length_two hwf rfl hopc tgt rest

end Sys2Proof.Machine
end

section
/-!
Data movement (R140, R141): `mov` and `ldi` write one register and nothing else, so that each statement is
assembled from the write's postcondition and from the bytes that name the destination and the value.
-/

namespace Sys2Proof.Machine

open Sys2Proof.Claims

theorem execUnder_mov (cfg : Config) (d src : Reg) (s : State) :
    execUnder cfg (.mov d src) s = .next (s.setReg d (s.reg src)) := rfl

theorem execUnder_ldi (cfg : Config) (d : Reg) (imm : Byte) (s : State) :
    execUnder cfg (.ldi d imm) s = .next (s.setReg d imm) := rfl

/-- An instruction whose meaning is one register write satisfies the postcondition of such a write. -/
theorem exists_loadPost_of_setReg {cfg : Config} {i : Instr} {v : Byte} {d : Reg} {s : State}
    (h : execUnder cfg i s = .next (s.setReg d v)) :
    ∃ t, execUnder cfg i s = .next t ∧ LoadPost cfg v d s t :=
  ⟨_, h, loadPost_setReg cfg v d s⟩

/-- Settles O13: the source is read before the write, and the decoder reads nothing of the second byte's
low nibble. -/
theorem movResult : Obligations.MovResult := by
  intro d src s
  have hpost cfg := exists_loadPost_of_setReg (execUnder_mov cfg d src s)
  refine ⟨exec_post hpost, fun cfg hwf => ⟨hpost cfg, fun b1 b2 rest hopc hd hsrc => ?_⟩⟩
  rw [decode_of_hi_of_length_two hwf rfl hopc, Mnemonic.build, cellOf_loNibble hd,
    cellOf_hiNibble hsrc]

/-- Settles O14: the value written is the second byte as it stands, in the state and in the decoding. -/
theorem ldiResult : Obligations.LdiResult := by
  intro d imm s
  have hpost cfg := exists_loadPost_of_setReg (execUnder_ldi cfg d imm s)
  refine ⟨exec_post hpost, fun cfg hwf => ⟨hpost cfg, fun b1 rest hopc hd => ?_⟩⟩
  rw [decode_of_hi_of_length_two hwf rfl hopc, Mnemonic.build, cellOf_loNibble hd]

end Sys2Proof.Machine
end

section
/-!
Port input and output (R150, R151): `in` is a register write of a port's content and `out` a port write of
a register's content, with no address check on either (R56). Both are decoded from a register in the first
byte and a port in the second.
-/

namespace Sys2Proof.Machine

open Sys2Proof.Claims

/-! ## The decoding of a register and a port -/

/-- The mnemonic `m` makes of two bytes the instruction `mk` of the register that the operand nibble names
and the port that the second byte's high nibble names (R72, R74). -/
def ReadsRegisterPort (m : Mnemonic) (mk : Reg → Port → Instr) : Prop :=
  m.length = 2 ∧ ∀ b1 b2, m.build b1 b2 = mk (cellOf (loNibble b1)) (cellOf (hiNibble b2))

theorem decode_registerPort {cfg : Config} (hwf : cfg.wellFormed = true) {m : Mnemonic}
    {mk : Reg → Port → Instr} (hm : ReadsRegisterPort m mk) {r : Reg} {p : Port} {b1 b2 : Byte}
    (hopc : hi b1 = (cfg.opc m).toNat) (hr : lo b1 = r.val) (hp : hi b2 = p.val)
    (rest : List Byte) :
    decode cfg.opc (b1 :: b2 :: rest) = .ok (mk r p, rest) := by
  obtain ⟨hlength, hbuild⟩ := hm
  rw [decode_of_hi_of_length_two hwf hlength hopc, hbuild, cellOf_loNibble hr, cellOf_hiNibble hp]

theorem readsRegisterPort_inPort : ReadsRegisterPort .inPort .inPort := ⟨rfl, fun _ _ => rfl⟩

theorem readsRegisterPort_outPort : ReadsRegisterPort .outPort fun r p => .outPort p r :=
  ⟨rfl, fun _ _ => rfl⟩

/-! ## Input -/

theorem execUnder_inPort (cfg : Config) (d : Reg) (p : Port) (s : State) :
    execUnder cfg (.inPort d p) s = .next (s.setReg d (s.readPort p)) := rfl

/-- Settles O15: the port is read before the register write, and that write is the only one. -/
theorem inResult : Obligations.InResult := by
  intro d p s
  have hpost cfg := exists_loadPost_of_setReg (execUnder_inPort cfg d p s)
  exact ⟨exec_post hpost, fun cfg hwf => ⟨hpost cfg, fun _ _ rest hopc hd hp =>
    decode_registerPort hwf readsRegisterPort_inPort hopc hd hp rest⟩⟩

/-! ## Output -/

theorem execUnder_outPort (cfg : Config) (p : Port) (r : Reg) (s : State) :
    execUnder cfg (.outPort p r) s = .next (s.writePort p (s.reg r)) := rfl

/-- A port write leaves every other port cell as it was. -/
theorem State.readPort_writePort_other (s : State) {p q : Port} (v : Byte) (h : q ≠ p) :
    (s.writePort p v).readPort q = s.readPort q := by
  rw [State.readPort_writePort, if_neg h.symm]

/-- A port write of a register's content is all that `out` leaves behind (R151). -/
theorem outPost_writePort (cfg : Config) (p : Port) (r : Reg) (s : State) :
    OutPost cfg p r s (s.writePort p (s.reg r)) :=
  ⟨State.readPort_writePort_same s p _, fun _ hq => State.readPort_writePort_other s _ hq,
    State.reg_writePort s p _, rfl, ⟨rfl, fun _ => rfl⟩, rfl⟩

theorem execUnder_outPort_post (cfg : Config) (p : Port) (r : Reg) (s : State) :
    ∃ t, execUnder cfg (.outPort p r) s = .next t ∧ OutPost cfg p r s t :=
  ⟨_, execUnder_outPort cfg p r s, outPost_writePort cfg p r s⟩

/-- Settles O16: the port write is the only one, and the decoder reads nothing of the second byte's low
nibble. -/
theorem outResult : Obligations.OutResult := by
  intro p r s
  have hpost cfg := execUnder_outPort_post cfg p r s
  exact ⟨exec_post hpost, fun cfg hwf => ⟨hpost cfg, fun _ _ rest hopc hr hp =>
    decode_registerPort hwf readsRegisterPort_outPort hopc hr hp rest⟩⟩

end Sys2Proof.Machine
end

section
/-!
The second pass (R170). It works item by item, so that what it returns and where it fails are said of one
item.
-/

namespace Sys2Proof.Machine

theorem resolveItem_ok {labels : List (Token × Byte)} {i : Item} {b : Byte} :
    resolveItem labels i = .ok b ↔
      i = .byte b ∨ ∃ name, i = .labelRef name ∧ labels.lookup name = some b := by
  cases i with
  | byte c => simp [resolveItem_byte]
  | labelRef name => simp [resolveItem, lookupName_ok]

/-- An item has one way to fail: a reference that no label resolves (R170). -/
theorem resolveItem_error {labels : List (Token × Byte)} {i : Item} {e : AsmError} :
    resolveItem labels i = .error e ↔
      e = .unresolvedLabel ∧ ∃ name, i = .labelRef name ∧ labels.lookup name = none := by
  cases i with
  | byte b => simp [resolveItem_byte]
  | labelRef name =>
    rw [resolveItem, lookupName_error, eq_comm]
    simp only [Item.labelRef.injEq, exists_eq_left']

theorem resolveItems_cons_ok {labels : List (Token × Byte)} {i : Item} {rest : List Item}
    {bytes : List Byte} :
    resolveItems labels (i :: rest) = .ok bytes ↔
      ∃ b bs, resolveItem labels i = .ok b ∧ resolveItems labels rest = .ok bs ∧ bytes = b :: bs := by
  simp only [resolveItems]
  cases resolveItem labels i with
  | error e => simp
  | ok b => cases resolveItems labels rest <;> simp [Except.map, eq_comm]

theorem resolveItems_singleton_ok {labels : List (Token × Byte)} {i : Item} {bs : List Byte} :
    resolveItems labels [i] = .ok bs ↔ ∃ b, resolveItem labels i = .ok b ∧ bs = [b] := by
  rw [resolveItems_cons_ok]
  simp [resolveItems]

theorem resolveItems_cons_error {labels : List (Token × Byte)} {i : Item} {rest : List Item}
    {e : AsmError} :
    resolveItems labels (i :: rest) = .error e ↔
      resolveItem labels i = .error e ∨
        ∃ b, resolveItem labels i = .ok b ∧ resolveItems labels rest = .error e := by
  simp only [resolveItems]
  cases resolveItem labels i with
  | error e' => simp
  | ok b => cases resolveItems labels rest <;> simp [Except.map]

theorem resolveItems_ok_iff_forall₂ {labels : List (Token × Byte)} {items : List Item}
    {bytes : List Byte} :
    resolveItems labels items = .ok bytes ↔
      List.Forall₂ (fun i b => resolveItem labels i = .ok b) items bytes := by
  induction items generalizing bytes with
  | nil => simp [resolveItems, eq_comm]
  | cons i rest ih => simp only [resolveItems_cons_ok, List.forall₂_cons_left_iff, ih]

/-- Resolution fails exactly at an item that fails, and all of them fail alike. -/
theorem resolveItems_error {labels : List (Token × Byte)} {items : List Item} {e : AsmError} :
    resolveItems labels items = .error e ↔ ∃ i ∈ items, resolveItem labels i = .error e := by
  induction items with
  | nil => simp [resolveItems]
  | cons i rest ih =>
    rw [resolveItems_cons_error, ih, List.exists_mem_cons_iff]
    cases hi : resolveItem labels i with
    | ok b => simp
    | error e' =>
      have hsame : (∃ j ∈ rest, resolveItem labels j = .error e) → e' = e := by
        rintro ⟨j, -, hj⟩
        exact (resolveItem_error.mp hi).1.trans (resolveItem_error.mp hj).1.symm
      simpa using hsame

/-- Settles O49: both clauses are the item's own, at every place and at some place. -/
theorem labelsAreResolved : Obligations.LabelsAreResolved := by
  intro labels items
  constructor
  · intro bytes
    rw [resolveItems_ok_iff_forall₂, List.forall₂_iff_get]
    simp only [List.get_eq_getElem, resolveItem_ok, eq_comm (a := items.length)]
  · simp only [resolveItems_error, resolveItem_error, true_and]
    constructor
    · rintro ⟨_, hmem, name, rfl, hnone⟩
      exact ⟨name, hmem, hnone⟩
    · rintro ⟨name, hmem, hnone⟩
      exact ⟨_, hmem, name, rfl, hnone⟩

end Sys2Proof.Machine
end

section
/-!
The encoding of a line (R166 to R169, R172). The assembler forms the operand nibble and the second byte
from the tokens. Tokens that mean an instruction give that instruction's nibble and second byte, and tokens
that give any bytes mean the instruction that the decoder's fields make of those bytes.
-/

namespace Sys2Proof.Machine

open Sys2Proof.Claims

/-! ## What the parts of a line answer -/

theorem exceptMap_ok {ε α β : Type} {x : Except ε α} {f : α → β} {y : β} :
    x.map f = .ok y ↔ ∃ a, x = .ok a ∧ f a = y := by
  cases x <;> simp [Except.map]

theorem lookupName_map_ok {α β : Type} {e : AsmError} {table : List (Token × α)} {t : Token}
    {f : α → β} {y : β} :
    (lookupName e table t).map f = .ok y ↔ ∃ a, table.lookup t = some a ∧ f a = y := by
  simp only [exceptMap_ok, lookupName_ok]

/-- The second byte of the register-pair form (R169). -/
theorem sourceItems_registerPair {v : Vocabulary} {m : Mnemonic} (hm : operandCount m = 3)
    {a b c : Token} {items : List Item} :
    sourceItems v m [a, b, c] = .ok items ↔ ∃ s1 s2, v.registers.lookup b = some s1 ∧
      v.registers.lookup c = some s2 ∧ [.byte (byteOf (cellCode s1) (cellCode s2))] = items := by
  have hpair : sourceItems v m [a, b, c] = sourceItems v .add [a, b, c] := by
    cases m with
    | add | sub | and | or | nor | xor => rfl
    | nop | inc | rolr | rnv | bib | jmp | mov | ldi | inPort | outPort => cases hm
  rw [hpair]
  simp only [sourceItems, List.getD_cons_succ, List.getD_cons_zero]
  cases hb : lookupName .unknownRegister v.registers b with
  | error e => simp [(lookupName_error.mp hb).2]
  | ok s1 => simp [lookupName_ok.mp hb, lookupName_map_ok]

/-- What a line of the mnemonic `m` emits: with the right number of operands, the operand nibble and the
bytes after the first, labels replaced by their values (R166, R168 to R170). -/
def OperandsGive (v : Vocabulary) (labels : List (Token × Byte)) (m : Mnemonic) (ops : List Token)
    (n : Nibble) (bs : List Byte) : Prop :=
  ops.length = operandCount m ∧ operandNibble v m ops = .ok n ∧
    ∃ items, sourceItems v m ops = .ok items ∧ resolveItems labels items = .ok bs

theorem OperandsGive.unique {v : Vocabulary} {labels : List (Token × Byte)} {m : Mnemonic}
    {ops : List Token} {n n' : Nibble} {bs bs' : List Byte} (h : OperandsGive v labels m ops n bs)
    (h' : OperandsGive v labels m ops n' bs') : n = n' ∧ bs = bs' := by
  obtain ⟨-, hn, items, hs, hr⟩ := h
  obtain ⟨-, hn', items', hs', hr'⟩ := h'
  cases hs.symm.trans hs'
  exact ⟨Except.ok.inj (hn.symm.trans hn'), Except.ok.inj (hr.symm.trans hr')⟩

/-! ## The line against the encoder and the decoder -/

/-- Tokens that mean an instruction give its operand nibble and its second byte. -/
theorem operandsGive_of_lineMeans {v : Vocabulary} {labels : List (Token × Byte)} {ops : List Token}
    {i : Instr} (h : LineMeans v labels ops i) :
    OperandsGive v labels i.mnemonic ops i.nibble1 i.byte2.toList := by
  cases i with
  | nop =>
    cases h
    exact ⟨rfl, rfl, _, rfl, rfl⟩
  | add d s1 s2 | sub d s1 s2 | and d s1 s2 | or d s1 s2 | nor d s1 s2 | xor d s1 s2 =>
    obtain ⟨a, b, c, rfl, ha, hb, hc⟩ := h
    exact ⟨rfl, lookupName_map_ok.mpr ⟨d, ha, rfl⟩, _,
      (sourceItems_registerPair rfl).mpr ⟨s1, s2, hb, hc, rfl⟩, rfl⟩
  | inc d | rolr d | rnv d =>
    obtain ⟨a, rfl, ha⟩ := h
    exact ⟨rfl, lookupName_map_ok.mpr ⟨d, ha, rfl⟩, _, rfl, rfl⟩
  | bib n t =>
    obtain ⟨a, b, rfl, ha, hb⟩ := h
    exact ⟨rfl, lookupName_map_ok.mpr ⟨n, ha, rfl⟩, _, rfl,
      resolveItems_singleton_ok.mpr ⟨t, lookupName_ok.mpr hb, rfl⟩⟩
  | jmp t =>
    obtain ⟨a, rfl, ha⟩ := h
    exact ⟨rfl, rfl, _, rfl, resolveItems_singleton_ok.mpr ⟨t, lookupName_ok.mpr ha, rfl⟩⟩
  | mov d s =>
    obtain ⟨a, b, rfl, ha, hb⟩ := h
    exact ⟨rfl, lookupName_map_ok.mpr ⟨d, ha, rfl⟩, _, lookupName_map_ok.mpr ⟨s, hb, rfl⟩, rfl⟩
  | ldi d imm =>
    obtain ⟨a, b, rfl, ha, hb⟩ := h
    exact ⟨rfl, lookupName_map_ok.mpr ⟨d, ha, rfl⟩, _, exceptMap_ok.mpr ⟨imm, hb, rfl⟩, rfl⟩
  | inPort d p =>
    obtain ⟨a, b, rfl, ha, hb⟩ := h
    exact ⟨rfl, lookupName_map_ok.mpr ⟨d, ha, rfl⟩, _, lookupName_map_ok.mpr ⟨p, hb, rfl⟩, rfl⟩
  | outPort p r =>
    obtain ⟨a, b, rfl, ha, hb⟩ := h
    exact ⟨rfl, lookupName_map_ok.mpr ⟨r, hb, rfl⟩, _, lookupName_map_ok.mpr ⟨p, ha, rfl⟩, rfl⟩

/-- Tokens that give bytes mean the instruction that the decoder's fields make of those bytes; the fields
do not read the opcode `o`. -/
theorem lineMeans_build {v : Vocabulary} {labels : List (Token × Byte)} {m : Mnemonic}
    {ops : List Token} {n : Nibble} {bs : List Byte} (h : OperandsGive v labels m ops n bs)
    (o : Nibble) : LineMeans v labels ops (m.build (byteOf o n) (bs.headD 0)) := by
  obtain ⟨hcount, hn, items, hs, hr⟩ := h
  simp only [Mnemonic.build, loNibble_byteOf]
  cases m with
  | nop => exact List.length_eq_zero_iff.mp hcount
  | add | sub | and | or | nor | xor =>
    obtain ⟨a, b, c, rfl⟩ := List.length_eq_three.mp hcount
    obtain ⟨d, ha, rfl⟩ := lookupName_map_ok.mp hn
    obtain ⟨s1, s2, hb, hc, rfl⟩ := (sourceItems_registerPair rfl).mp hs
    obtain ⟨_, ⟨⟩, rfl⟩ := resolveItems_singleton_ok.mp hr
    simp only [List.headD_cons, hiNibble_byteOf, loNibble_byteOf, cellOf_cellCode]
    exact ⟨a, b, c, rfl, ha, hb, hc⟩
  | inc | rolr | rnv =>
    obtain ⟨a, rfl⟩ := List.length_eq_one_iff.mp hcount
    obtain ⟨d, ha, rfl⟩ := lookupName_map_ok.mp hn
    exact ⟨a, rfl, ha⟩
  | bib =>
    obtain ⟨a, b, rfl⟩ := List.length_eq_two.mp hcount
    obtain ⟨c, ha, rfl⟩ := lookupName_map_ok.mp hn
    cases hs
    obtain ⟨t, ht, rfl⟩ := resolveItems_singleton_ok.mp hr
    rw [condOf_condCode]
    exact ⟨a, b, rfl, ha, lookupName_ok.mp ht⟩
  | jmp =>
    obtain ⟨a, rfl⟩ := List.length_eq_one_iff.mp hcount
    cases hs
    obtain ⟨t, ht, rfl⟩ := resolveItems_singleton_ok.mp hr
    exact ⟨a, rfl, lookupName_ok.mp ht⟩
  | mov =>
    obtain ⟨a, b, rfl⟩ := List.length_eq_two.mp hcount
    obtain ⟨d, ha, rfl⟩ := lookupName_map_ok.mp hn
    obtain ⟨s, hb, rfl⟩ := lookupName_map_ok.mp hs
    obtain ⟨_, ⟨⟩, rfl⟩ := resolveItems_singleton_ok.mp hr
    rw [List.headD_cons, hiNibble_byteOf]
    exact ⟨a, b, rfl, ha, hb⟩
  | ldi =>
    obtain ⟨a, b, rfl⟩ := List.length_eq_two.mp hcount
    obtain ⟨d, ha, rfl⟩ := lookupName_map_ok.mp hn
    obtain ⟨imm, hb, rfl⟩ := exceptMap_ok.mp hs
    obtain ⟨_, ⟨⟩, rfl⟩ := resolveItems_singleton_ok.mp hr
    exact ⟨a, b, rfl, ha, hb⟩
  | inPort =>
    obtain ⟨a, b, rfl⟩ := List.length_eq_two.mp hcount
    obtain ⟨d, ha, rfl⟩ := lookupName_map_ok.mp hn
    obtain ⟨p, hb, rfl⟩ := lookupName_map_ok.mp hs
    obtain ⟨_, ⟨⟩, rfl⟩ := resolveItems_singleton_ok.mp hr
    rw [List.headD_cons, hiNibble_byteOf]
    exact ⟨a, b, rfl, ha, hb⟩
  | outPort =>
    obtain ⟨a, b, rfl⟩ := List.length_eq_two.mp hcount
    obtain ⟨r, hb, rfl⟩ := lookupName_map_ok.mp hn
    obtain ⟨p, ha, rfl⟩ := lookupName_map_ok.mp hs
    obtain ⟨_, ⟨⟩, rfl⟩ := resolveItems_singleton_ok.mp hr
    rw [List.headD_cons, hiNibble_byteOf]
    exact ⟨a, b, rfl, ha, hb⟩

/-- The tokens give exactly the bytes of an instruction that they mean. -/
theorem operandsGive_iff {v : Vocabulary} {labels : List (Token × Byte)} {m : Mnemonic}
    {ops : List Token} {n : Nibble} {bs : List Byte} :
    OperandsGive v labels m ops n bs ↔ ∃ i : Instr, i.mnemonic = m ∧ LineMeans v labels ops i ∧
      n = i.nibble1 ∧ bs = i.byte2.toList := by
  constructor
  · intro h
    have hmeans := lineMeans_build h 0
    have hgive := operandsGive_of_lineMeans hmeans
    rw [Mnemonic.build_mnemonic] at hgive
    exact ⟨_, Mnemonic.build_mnemonic .., hmeans, h.unique hgive⟩
  · rintro ⟨i, rfl, hmeans, rfl, rfl⟩
    exact operandsGive_of_lineMeans hmeans

/-! ## The whole line -/

/-- An accepted line passed every check of R172, and emits the first byte and then the second. -/
theorem instrItems_ok {cfg : Config} {name : Token} {ops : List Token} {items : List Item} :
    instrItems cfg name ops = .ok items ↔
      ∃ m n rest, cfg.vocab.mnemonics.lookup name = some m ∧ ops.length = operandCount m ∧
        operandNibble cfg.vocab m ops = .ok n ∧ sourceItems cfg.vocab m ops = .ok rest ∧
        .byte (byteOf (cfg.opc m) n) :: rest = items := by
  unfold instrItems
  cases hm : lookupName .unknownMnemonic cfg.vocab.mnemonics name with
  | error e => simp [(lookupName_error.mp hm).2]
  | ok m =>
    by_cases hcount : ops.length = operandCount m
    · cases hn : operandNibble cfg.vocab m ops with
      | error e => simp [lookupName_ok.mp hm, hcount, hn]
      | ok n => simp [lookupName_ok.mp hm, hcount, hn, exceptMap_ok]
    · simp [lookupName_ok.mp hm, hcount]

/-- R176 in every configuration: a line assembles to `bytes` exactly when its tokens name an instruction
whose canonical encoding `bytes` is. -/
theorem instrItems_resolved_iff {cfg : Config} {labels : List (Token × Byte)} {name : Token}
    {ops : List Token} {bytes : List Byte} :
    (∃ items, instrItems cfg name ops = .ok items ∧ resolveItems labels items = .ok bytes) ↔
      ∃ i : Instr, cfg.vocab.mnemonics.lookup name = some i.mnemonic ∧
        LineMeans cfg.vocab labels ops i ∧ bytes = encode cfg.opc i := by
  constructor
  · rintro ⟨_, hitems, hres⟩
    obtain ⟨m, n, rest, hm, hcount, hn, hs, rfl⟩ := instrItems_ok.mp hitems
    obtain ⟨_, bs, ⟨⟩, hbs, rfl⟩ := resolveItems_cons_ok.mp hres
    obtain ⟨i, rfl, hmeans, rfl, rfl⟩ := operandsGive_iff.mp ⟨hcount, hn, rest, hs, hbs⟩
    exact ⟨i, hm, hmeans, rfl⟩
  · rintro ⟨i, hm, hmeans, rfl⟩
    obtain ⟨hcount, hn, rest, hs, hbs⟩ := operandsGive_iff.mpr ⟨i, rfl, hmeans, rfl, rfl⟩
    exact ⟨_, instrItems_ok.mpr ⟨_, _, rest, hm, hcount, hn, hs, rfl⟩,
      resolveItems_cons_ok.mpr ⟨_, _, resolveItem_byte .., hbs, rfl⟩⟩

/-- Settles O47: the line agrees with the encoder, and the decoder inverts the encoder. -/
theorem lineAgreesWithDecoder : Obligations.LineAgreesWithDecoder := by
  intro cfg labels name ops hwf
  constructor
  · intro items bytes hitems hres
    obtain ⟨i, hm, hmeans, rfl⟩ := instrItems_resolved_iff.mp ⟨items, hitems, hres⟩
    have hdecode : decode cfg.opc (encode cfg.opc i ++ []) = .ok (i, []) := decodeEncode cfg i [] hwf
    rw [List.append_nil] at hdecode
    exact ⟨i, hm, hmeans, rfl, hdecode⟩
  · intro i hm hmeans
    exact instrItems_resolved_iff.mpr ⟨i, hm, hmeans, rfl⟩

end Sys2Proof.Machine
end

section
/-!
The first pass (R162, R172): what a label line binds, and that whatever values the labels get, the items
emitted resolve to canonical code.
-/

namespace Sys2Proof.Machine

open Sys2Proof.Claims

/-! ## A label line -/

/-- The one way to bind a label: a fresh name, at a position that a byte holds (R162). -/
theorem bindLabel_ok {cfg : Config} {name : Token} {st st' : AsmState} :
    bindLabel cfg name st = .ok st' ↔
      st.labels.lookup name = none ∧ cfg.labelBias.val ≤ st.out.length ∧
        st.out.length ≤ 255 + cfg.labelBias.val ∧
        { st with labels :=
            st.labels ++ [(name, BitVec.ofNat 8 (st.out.length - cfg.labelBias.val))] } = st' := by
  unfold bindLabel
  cases hl : st.labels.lookup name with
  | some v => simp
  | none =>
    have hrange : (st.out.length < cfg.labelBias.val ∨ 255 < st.out.length - cfg.labelBias.val) ↔
        ¬(cfg.labelBias.val ≤ st.out.length ∧ st.out.length ≤ 255 + cfg.labelBias.val) := by omega
    simp only [hrange, ite_not, Option.isSome_none, Bool.false_eq_true, if_false]
    split
    next hin => simp [hin]
    next hout => simpa using fun hlow hhigh => absurd ⟨hlow, hhigh⟩ hout

/-- Settles O50: the position bound is a number below 256, the new binding is found because the name was
fresh, and both transfers continue at their target's number. -/
theorem labelBiasAndJumpAdjust : Obligations.LabelBiasAndJumpAdjust := by
  intro cfg name st
  constructor
  · intro hfresh hlow hhigh
    exact ⟨_, bindLabel_ok.mpr ⟨hfresh, hlow, hhigh, rfl⟩⟩
  · intro st' hbind
    obtain ⟨hfresh, hlow, hhigh, rfl⟩ := bindLabel_ok.mp hbind
    have hvalue : (BitVec.ofNat 8 (st.out.length - cfg.labelBias.val)).toNat + cfg.labelBias.val =
        st.out.length := by
      rw [BitVec.toNat_ofNat, Nat.mod_eq_of_lt (by omega), Nat.sub_add_cancel hlow]
    refine ⟨_, lookupName_ok.mpr ?_, hvalue, rfl, fun other hother => ?_, fun n s t => ⟨?_, ?_⟩⟩
    · simp [List.lookup_append, hfresh]
    · simp [List.lookup_append, List.lookup_cons, beq_false_of_ne hother]
    · intro htaken hbib
      rw [execUnder_bib, if_pos htaken] at hbib
      cases hbib
      exact hvalue
    · intro hjmp
      obtain ⟨hdefined, rfl⟩ := execUnder_jmp_next.mp hjmp
      rw [State.setPc_pc, add_right_comm, jmpTarget_toNat hdefined, hvalue]

/-! ## An instruction line -/

/-- The items emit canonical code: whatever values the labels get, they resolve to a concatenation of
canonical encodings (R80, R176). -/
def EmitsCode (cfg : Config) (items : List Item) : Prop :=
  ∀ labels bytes, resolveItems labels items = .ok bytes →
    ∃ program : List Instr, bytes = program.flatMap (encode cfg.opc)

theorem emitsCode_nil (cfg : Config) : EmitsCode cfg [] := by
  intro labels bytes hres
  cases hres
  exact ⟨[], rfl⟩

theorem EmitsCode.append {cfg : Config} {xs ys : List Item} (hx : EmitsCode cfg xs)
    (hy : EmitsCode cfg ys) : EmitsCode cfg (xs ++ ys) := by
  intro labels bytes hres
  obtain ⟨as, bs, has, hbs, rfl⟩ := resolveItems_append.mp hres
  obtain ⟨p, rfl⟩ := hx labels as has
  obtain ⟨q, rfl⟩ := hy labels bs hbs
  exact ⟨p ++ q, List.flatMap_append.symm⟩

theorem instrItems_emitsCode {cfg : Config} {name : Token} {ops : List Token} {items : List Item}
    (h : instrItems cfg name ops = .ok items) : EmitsCode cfg items := by
  intro labels bytes hres
  obtain ⟨i, -, -, rfl⟩ := instrItems_resolved_iff.mp ⟨items, h, hres⟩
  exact ⟨[i], (List.flatMap_singleton ..).symm⟩

/-! ## A line, and all lines -/

/-- Everything an accepted line can do: nothing, bind a label, or emit an instruction's items (R172). -/
theorem asmLine_ok {cfg : Config} {st st' : AsmState} {line : List Token}
    (h : asmLine cfg st line = .ok st') :
    st' = st ∨ (∃ name, bindLabel cfg name st = .ok st') ∨
      ∃ name ops items, instrItems cfg name ops = .ok items ∧
        st' = { st with out := st.out ++ items } := by
  cases line with
  | nil =>
    cases h
    exact .inl rfl
  | cons t ops =>
    unfold asmLine at h
    dsimp only at h
    split at h
    · split at h
      next name => exact .inr (.inl ⟨name, h⟩)
      next => cases h
    · obtain ⟨items, hitems, rfl⟩ := exceptMap_ok.mp h
      exact .inr (.inr ⟨t, ops, items, hitems, rfl⟩)

theorem asmLine_emitsCode {cfg : Config} {st st' : AsmState} {line : List Token}
    (hcode : EmitsCode cfg st.out) (h : asmLine cfg st line = .ok st') : EmitsCode cfg st'.out := by
  obtain rfl | ⟨name, hbind⟩ | ⟨name, ops, items, hitems, rfl⟩ := asmLine_ok h
  · exact hcode
  · obtain ⟨-, -, -, rfl⟩ := bindLabel_ok.mp hbind
    exact hcode
  · exact hcode.append (instrItems_emitsCode hitems)

theorem asmLines_emitsCode {cfg : Config} {st st' : AsmState} {lines : List (List Token)}
    (hcode : EmitsCode cfg st.out) (h : asmLines cfg st lines = .ok st') : EmitsCode cfg st'.out := by
  induction lines generalizing st with
  | nil =>
    cases h
    exact hcode
  | cons line rest ih =>
    rw [asmLines] at h
    split at h
    next => cases h
    next hline => exact ih (asmLine_emitsCode hcode hline) h

/-- What both passes together did for an accepted text (R170, R172, R175). -/
theorem assembleLines_ok {cfg : Config} {lines : List (List Token)} {bytes : List Byte}
    (h : assembleLines cfg lines = .ok bytes) :
    ∃ st, asmLines cfg ⟨[], []⟩ lines = .ok st ∧ st.out.length ≤ 256 ∧
      resolveItems st.labels st.out = .ok bytes := by
  rw [assembleLines] at h
  split at h
  next => cases h
  next st hst =>
    split at h
    next => cases h
    next hlen => exact ⟨st, hst, Nat.le_of_not_lt hlen, h⟩

/-- Settles O48: the first pass emits canonical code from nothing, and the second keeps its length. -/
theorem assembledIsCanonicalCode : Obligations.AssembledIsCanonicalCode := by
  intro cfg text bytes h
  obtain ⟨st, hlines, hlen, hres⟩ := assembleLines_ok h
  exact ⟨(resolveItems_length hres).trans_le hlen,
    asmLines_emitsCode (emitsCode_nil cfg) hlines st.labels bytes hres⟩

end Sys2Proof.Machine
end

section
/-!
What can stop an instruction and a step (R131, R180, R181, R184, R186). An instruction has one stop, the jump
to 0 under `JMP_ADJUST = 1`, and the reference configuration has none. So a step there stops exactly where one
of its fetches does.
-/

namespace Sys2Proof.Machine

open Sys2Proof.Claims

/-! ## The instructions -/

/-- Every instruction completes but one: the jump to 0 under `JMP_ADJUST = 1` (R131, R180; D3, log 3). -/
theorem execUnder_next_or_jmp_fault (cfg : Config) (i : Instr) (s : State) :
    (∃ t, execUnder cfg i s = .next t) ∨
      (cfg.jmpAdjust = 1 ∧ i = .jmp 0 ∧ execUnder cfg i s = .fault .jumpTargetUnderflow) := by
  cases i with
  | add | sub | and | or | nor | xor | inc | rolr => exact .inl ⟨_, execUnder_aluForm rfl s⟩
  | nop | rnv | bib | mov | ldi | inPort | outPort => exact .inl ⟨_, rfl⟩
  | jmp tgt =>
    by_cases hunderflow : cfg.jmpAdjust = 1 ∧ tgt = 0
    · obtain ⟨hadjust, rfl⟩ := hunderflow
      exact .inr ⟨hadjust, rfl, execUnder_jmp_fault hadjust rfl s⟩
    · exact .inl ⟨_, execUnder_jmp_next.mpr ⟨hunderflow, rfl⟩⟩

theorem exists_exec_next (i : Instr) (s : State) : ∃ t, exec i s = .next t := by
  rw [exec_eq_execUnder]
  rcases execUnder_next_or_jmp_fault reference i s with hnext | ⟨hadjust, -⟩
  · exact hnext
  · exact absurd hadjust (by decide)

/-- Settles O19: the one stop needs `JMP_ADJUST = 1`, and the reference value is 0. -/
theorem noInstructionTraps : Obligations.NoInstructionTraps :=
  ⟨exists_exec_next, execUnder_next_or_jmp_fault⟩

/-! ## The fetch of an instruction -/

/-- With an opcode for every nibble, fetching an instruction is refused exactly where its first fetch is: by
the second one the store is known to be frozen (R183, R184). -/
theorem fetchInstr_refused {cfg : Config} (hwf : cfg.wellFormed = true) {s : State} {r : Refusal} :
    fetchInstr cfg s = .refused r ↔ s.romPhase = .writable ∧ r = .stepBeforeFreeze := by
  rw [← fetch_refused (cfg := cfg)]
  unfold fetchInstr
  cases h1 : fetch cfg s with
  | fault f => simp
  | refused r' => simp
  | next p =>
    obtain ⟨b1, u⟩ := p
    obtain ⟨hfrozen, -, q, -, rfl⟩ := fetch_next.mp h1
    obtain ⟨m, hm⟩ := Config.opc_surjective hwf (hiNibble b1)
    have hsecond : fetch cfg (s.setPc q) ≠ .refused r := by simp [fetch_refused, hfrozen]
    simp only [(mnemonicOf_eq_some hwf).mpr hm, reduceCtorEq, iff_false]
    split
    · nofun
    · cases h2 : fetch cfg (s.setPc q) with
      | next | fault => nofun
      | refused r' => simpa [h2] using hsecond

/-- Fetching an instruction faults where its first fetch does, or where the second fetch of a two-byte
instruction does (R186). -/
theorem fetchInstr_fault {cfg : Config} {s : State} {f : Fault} :
    fetchInstr cfg s = .fault f ↔ fetch cfg s = .fault f ∨
      ∃ b1 u m, fetch cfg s = .next (b1, u) ∧ mnemonicOf cfg.opc (hiNibble b1) = some m ∧
        m.length = 2 ∧ fetch cfg u = .fault f := by
  unfold fetchInstr
  cases h1 : fetch cfg s with
  | fault f' => simp
  | refused r => simp
  | next p =>
    obtain ⟨b1, u⟩ := p
    cases hm : mnemonicOf cfg.opc (hiNibble b1) with
    | none => simp [hm]
    | some m =>
      rcases m.length_cases with l | l
      · simp [hm, l]
      · cases h2 : fetch cfg u <;> simp [hm, l, h2]

/-! ## The step in the reference configuration -/

/-- A step stops exactly where the fetch of its instruction does, and with the same stop (R180). -/
theorem step_stop_iff (s : State) :
    (∀ r, step s = .refused r ↔ fetchInstr reference s = .refused r) ∧
      ∀ f, step s = .fault f ↔ fetchInstr reference s = .fault f := by
  unfold step runFetched
  cases fetchInstr reference s with
  | fault f => simp
  | refused r => simp
  | next p =>
    obtain ⟨t, ht⟩ := exists_exec_next p.1 p.2
    simp [ht]

/-- Under `ROM_FILL = none` a cell reads as what is listed for it (R27). -/
@[simp] theorem Memory.read_none (m : Memory) (a : Nat) : m.read none a = m.lookup a := by
  cases h : m.lookup a <;> simp [Memory.read, h]

theorem nextPc_reference_eq_none {pc : Byte} : nextPc reference pc = none ↔ pc.toNat = 255 := by
  have hfault : reference.pcOverflow = .fault := rfl
  have h255 : pc = 255 ↔ pc.toNat = 255 := BitVec.toNat_inj.symm
  simp only [nextPc_eq_none, h255, hfault, and_true]

/-- The faults of a fetch, in the statements' terms (R181). -/
theorem fetch_reference_fault {s : State} {f : Fault} :
    fetch reference s = .fault f ↔ s.romPhase = .frozen ∧
      (Memory.lookup s.rom s.pc.toNat = none ∧ f = .unloadedFetch s.pc ∨
        (∃ b, Memory.lookup s.rom s.pc.toNat = some b) ∧ s.pc.toNat = 255 ∧ f = .pcOverflow) := by
  have hfill : reference.romFill = none := rfl
  simp only [fetch_fault, hfill, Memory.read_none, nextPc_reference_eq_none]

/-- The completing fetch, in the statements' terms (R27). -/
theorem fetch_reference_next {s u : State} {b : Byte} :
    fetch reference s = .next (b, u) ↔ s.romPhase = .frozen ∧
      Memory.lookup s.rom s.pc.toNat = some b ∧ s.pc.toNat ≠ 255 ∧ u = s.setPc (s.pc + 1) := by
  have hfill : reference.romFill = none := rfl
  simp only [fetch_next, hfill, Memory.read_none]
  by_cases h255 : s.pc.toNat = 255
  · simp [nextPc_reference_eq_none.mpr h255, h255]
  · have hne : s.pc ≠ 255 := fun e => h255 (congrArg BitVec.toNat e)
    simp [nextPc_of_ne hne, h255]

/-- The reference opcodes of the one-byte mnemonics are 0, 7, 8 and 9 (R70, R75; D1, log 1). -/
theorem referenceOpc_mem_oneByte {m : Mnemonic} :
    (referenceOpc m).toNat ∈ [0, 7, 8, 9] ↔ m.length = 1 := by
  cases m <;> decide

/-- A first byte with another opcode begins a two-byte instruction. -/
theorem exists_length_two_iff_hi {b1 : Byte} :
    (∃ m, mnemonicOf reference.opc (hiNibble b1) = some m ∧ m.length = 2) ↔ hi b1 ∉ [0, 7, 8, 9] := by
  obtain ⟨m, hm⟩ := Config.opc_surjective reference_wellFormed (hiNibble b1)
  have hhi : (referenceOpc m).toNat = hi b1 := opc_toNat_eq_hi.mpr hm
  rw [(mnemonicOf_eq_some reference_wellFormed).mpr hm, ← hhi, referenceOpc_mem_oneByte]
  rcases m.length_cases with l | l <;> simp [l]

/-- The second fetch of an instruction reads the next address, which is below 256 because the first fetch
could advance (R181, R186). -/
theorem fetch_reference_second_fault {s : State} {f : Fault} (hpc : s.pc.toNat ≠ 255) :
    fetch reference (s.setPc (s.pc + 1)) = .fault f ↔ s.romPhase = .frozen ∧
      (Memory.lookup s.rom (s.pc.toNat + 1) = none ∧ f = .unloadedFetch (s.pc + 1) ∨
        Memory.lookup s.rom (s.pc.toNat + 1) ≠ none ∧ s.pc.toNat = 254 ∧ f = .pcOverflow) := by
  have hnext : (s.pc + 1).toNat = s.pc.toNat + 1 := by bv_omega
  simp only [fetch_reference_fault, State.setPc_pc, State.setPc_rom, State.setPc_romPhase, hnext,
    Option.ne_none_iff_exists', Nat.reduceEqDiff]

/-- A step faults at its first byte, or at the second byte of a two-byte instruction. -/
theorem step_fault_at_byte {s : State} {f : Fault} :
    step s = .fault f ↔ fetch reference s = .fault f ∨
      ∃ b1, s.romPhase = .frozen ∧ Memory.lookup s.rom s.pc.toNat = some b1 ∧ s.pc.toNat ≠ 255 ∧
        hi b1 ∉ [0, 7, 8, 9] ∧ fetch reference (s.setPc (s.pc + 1)) = .fault f := by
  obtain ⟨-, hfault⟩ := step_stop_iff s
  rw [hfault, fetchInstr_fault]
  refine or_congr_right (exists_congr fun b1 => ?_)
  rw [← exists_length_two_iff_hi]
  constructor
  · rintro ⟨u, m, h1, hm, l, h2⟩
    obtain ⟨hfrozen, hread, hpc, rfl⟩ := fetch_reference_next.mp h1
    exact ⟨hfrozen, hread, hpc, ⟨m, hm, l⟩, h2⟩
  · rintro ⟨hfrozen, hread, hpc, ⟨m, hm, l⟩, h2⟩
    exact ⟨_, m, fetch_reference_next.mpr ⟨hfrozen, hread, hpc, rfl⟩, hm, l, h2⟩

/-- Settles O22: the refusal is the first fetch's, and a fault is the first or the second fetch's. -/
theorem stepStopsExactly : Obligations.StepStopsExactly := by
  intro s
  obtain ⟨hrefused, -⟩ := step_stop_iff s
  refine ⟨fun r => (hrefused r).trans (fetchInstr_refused reference_wellFormed), fun f => ?_⟩
  rw [step_fault_at_byte]
  constructor
  · rintro (h1 | ⟨b1, hfrozen, hread, hpc, hhi, h2⟩)
    · obtain ⟨hfrozen, hnone | ⟨⟨b1, hread⟩, h255⟩⟩ := fetch_reference_fault.mp h1
      · exact ⟨hfrozen, .inl hnone⟩
      · exact ⟨hfrozen, .inr ⟨b1, hread, .inl h255⟩⟩
    · obtain ⟨-, hsecond⟩ := (fetch_reference_second_fault hpc).mp h2
      exact ⟨hfrozen, .inr ⟨b1, hread, .inr ⟨hpc, hhi, hsecond⟩⟩⟩
  · rintro ⟨hfrozen, hnone | ⟨b1, hread, h255 | ⟨hpc, hhi, hsecond⟩⟩⟩
    · exact .inl (fetch_reference_fault.mpr ⟨hfrozen, .inl hnone⟩)
    · exact .inl (fetch_reference_fault.mpr ⟨hfrozen, .inr ⟨⟨b1, hread⟩, h255⟩⟩)
    · exact .inr ⟨b1, hfrozen, hread, hpc, hhi,
        (fetch_reference_second_fault hpc).mpr ⟨hfrozen, hsecond⟩⟩

/-! ## The halted state -/

/-- A jump to where its own fetch began restores the state (R203; D3, D22, log 3, log 20). -/
theorem exec_jmp_self (s : State) (past : Byte) : exec (.jmp s.pc) (s.setPc past) = .next s := by
  have hadjust : s.pc - BitVec.ofNat 8 reference.jmpAdjust.val = s.pc := BitVec.sub_zero _
  rw [exec_eq_execUnder, execUnder_jmp_next, hadjust]
  exact ⟨by simp [reference], rfl⟩

/-- Settles O23: the two bytes of a halted state decode to the jump to its program counter. -/
theorem haltedIsFixedPoint : Obligations.HaltedIsFixedPoint := by
  rintro s ⟨hfrozen, b, hopc, hloaded⟩
  have hm : mnemonicOf reference.opc (hiNibble b) = some .jmp :=
    (mnemonicOf_eq_some reference_wellFormed).mpr hopc.symm
  obtain ⟨hstep, -⟩ := stepRunsDecoded
  rw [hstep (.jmp s.pc) [b, s.pc] s hfrozen (decode_two hm rfl) hloaded]
  exact exec_jmp_self s _

end Sys2Proof.Machine
end

section
/-!
Sticky flags (R24, R204): the only flag update that clears a bit is `rolr`'s, and it clears no bit but carry.
-/

namespace Sys2Proof.Machine

open Sys2Proof.Claims

/-- A flag update, in the sense of `FlagUpdate`, that keeps every set bit of cell 15 that `sticky` names. -/
def KeepsSetBits (sticky : BitPos → Prop) (update : State → State) : Prop :=
  ∃ upd, FlagUpdate update upd ∧ ∀ k, sticky k → upd k true = true

/-- The flag update of an ALU instruction keeps every set bit of cell 15, but for carry under `rolr` (R24). -/
theorem aluForm_keepsSetBits {cfg : Config} {i : Instr} {f : AluForm} (hf : aluForm cfg i = some f)
    (a b : Byte) : KeepsSetBits (fun k => k = cfg.flagC → ∀ d, i ≠ .rolr d) (f.update a b) := by
  cases i <;> cases hf
  case add | inc => exact ⟨_, flagUpdate_sum .., fun _ _ => rfl⟩
  case sub => exact ⟨_, flagUpdate_difference .., fun _ _ => rfl⟩
  case and | or | xor => exact ⟨_, flagUpdate_logic .., fun _ _ => rfl⟩
  case nor => exact ⟨_, flagUpdate_nor .., fun _ _ => rfl⟩
  case rolr d => exact ⟨_, flagUpdate_rotate .., fun k hk => if_neg fun hC => hk hC d rfl⟩

/-- An instruction whose destination is not register 15 keeps every set bit of it, but for carry under
`rolr` (R204). -/
theorem execUnder_keeps_set_bit {cfg : Config} {i : Instr} {s t : State} {k : BitPos}
    (h : execUnder cfg i s = .next t) (hd : destination i ≠ some 15)
    (hk : k = cfg.flagC → ∀ d, i ≠ .rolr d) (hset : bit (s.reg 15) k = true) :
    bit (t.reg 15) k = true := by
  cases hf : aluForm cfg i with
  | some f =>
    cases (execUnder_aluForm hf s).symm.trans h
    have hdest : f.dest ≠ 15 := fun e => hd (by rw [aluForm_dest hf, e])
    obtain ⟨upd, hupd, hkeeps⟩ := aluForm_keepsSetBits hf (s.reg f.src1) (s.reg f.src2)
    obtain ⟨-, -, -, -, -, -, hflags, -⟩ :=
      aluWrite_spec hupd f.order f.dest (f.value (s.reg f.src1) (s.reg f.src2)) s
    obtain ⟨-, hbits⟩ := hflags hdest
    rw [bit_eq_getLsbD] at hset ⊢
    rw [AluForm.run, hbits k, hset, hkeeps k hk]
  | none =>
    have hu : updatesFlags i = false := by rw [← isSome_aluForm cfg, hf]; rfl
    rwa [registerWrites cfg i s t 15 h hd.symm fun _ => hu]

/-- Settles O27: zero and sign are not the carry bit, the one bit that `rolr` can clear. -/
theorem flagsAreSticky : Obligations.FlagsAreSticky := by
  intro cfg i s t hwf h hd
  obtain ⟨hZC, -, hCS⟩ := Config.flags_distinct hwf
  exact ⟨execUnder_keeps_set_bit h hd fun hZ => absurd hZ hZC,
    execUnder_keeps_set_bit h hd fun hS => absurd hS.symm hCS,
    fun hrolr => execUnder_keeps_set_bit h hd fun _ => hrolr⟩

end Sys2Proof.Machine
end

section
/-!
What a request leaves (R8, R181, R182, R184; D21, log 19), and the invariant at reset (R200; log 25).
-/

namespace Sys2Proof.Machine

/-- Everything a request can be answered with, and the state after it: only a step is refused or faults, no
step is a usage error, and only a fault leaves no state. -/
inductive Answer (cfg : Config) (s : State) : Request → Reply × Option State → Prop where
  | done {r : Request} (t : State) : Answer cfg s r (.done, some t)
  | value {r : Request} (v : Byte) : Answer cfg s r (.value v, some s)
  | usageError {r : Request} (e : UsageError) (hr : r ≠ .step) :
      Answer cfg s r (.usageError e, some s)
  | refused (e : Refusal) : Answer cfg s .step (.refused e, some s)
  | fault (f : Fault) (h : stepUnder cfg s = .fault f) : Answer cfg s .step (.fault f, none)

theorem answer_replyOf (cfg : Config) (s : State) {r : Request} (hr : r ≠ .step)
    (x : Except UsageError State) : Answer cfg s r (replyOf s x) := by
  cases x with
  | ok t => exact .done t
  | error e => exact .usageError e hr

/-- Serving a request gives an answer to it. -/
theorem serve_answer (cfg : Config) (r : Request) (s : State) : Answer cfg s r (serve cfg r s) := by
  cases r with
  | memWrite | load | inSet => exact answer_replyOf cfg s (by nofun) _
  | freeze => exact .done (freeze s)
  | outGet addr =>
    simp only [serve]
    cases outGet addr s with
    | ok v => exact .value v
    | error e => exact .usageError e (by nofun)
  | step =>
    simp only [serve]
    cases h : stepUnder cfg s with
    | next t => exact .done t
    | refused e => exact .refused e
    | fault f => exact .fault f h

/-- Settles O44: each failed answer carries the state that the request was given. -/
theorem failedRequestsChangeNothing : Obligations.FailedRequestsChangeNothing := by
  intro cfg r s after
  have hanswer := serve_answer cfg r s
  refine ⟨fun e h => ?_, fun e h => ?_⟩
  · rw [h] at hanswer
    cases hanswer with
    | usageError _ hr => exact ⟨rfl, hr⟩
  · rw [h] at hanswer
    cases hanswer with
    | refused => exact ⟨rfl, rfl⟩

/-- Settles O45: of the answers to a request, only the fault of a step leaves no state. -/
theorem noStateLeftIffStepFaults : Obligations.NoStateLeftIffStepFaults := by
  intro cfg r s
  constructor
  · have hanswer := serve_answer cfg r s
    generalize serve cfg r s = answer at hanswer ⊢
    intro hnone
    cases hanswer with
    | done | value | usageError | refused => cases hnone
    | fault f h => exact ⟨rfl, f, h, rfl⟩
  · rintro ⟨-, f, -, hserve⟩
    rw [hserve]

/-! ## The store at reset -/

theorem Memory.wf_nil (fill : Option Byte) : Memory.wf fill [] = true := rfl

/-- Settles O33: the store after reset has no entry. -/
theorem resetStoreForm : Obligations.ResetStoreForm :=
  ⟨Memory.wf_nil _, fun _ => Memory.wf_nil _⟩

end Sys2Proof.Machine
end
